-- ==== Sys2Proof/Word.lean ====
section
/-! DEFINITION. The widths of the machine's values (00_scope.md R6, R7): bytes, 16-bit words, 12-bit addresses, register indices. -/

namespace Sys2Proof

/-- The 8-bit value of a general register, a timer or a memory byte (R6). -/
abbrev Byte := BitVec 8

/-- The 16-bit value of `I`, `pc`, a stack entry or an instruction word (R6, R70). -/
abbrev Word := BitVec 16

/-- The 12-bit address field `nnn` (30_encoding.md R71). -/
abbrev Addr := BitVec 12

/-- The pressed-key set as a mask: key `k` is pressed iff bit `k` is 1 (47_keys.md R183). -/
abbrev KeyMask := BitVec 16

/-- The index of a general register, 0 to 15 (10_state.md R21, R38). -/
abbrev RegIx := Fin 16

end Sys2Proof
end

