-- ==== Sys2Proof/Syntax.lean ====
section
/-! DEFINITION. The instructions: one constructor per row of spec/opcode_table.json (30_encoding.md R78), in the table's order. -/

namespace Sys2Proof

/-- The 34 instructions of R78 with the operand fields of their rows. `ShrVx` and `ShlVx` keep the `vy` field that
their words carry and their meanings ignore (R73, 44_bitops.md R155). -/
inductive Instr where
  | clearDisplay
  | ret
  | jump              (nnn : Addr)
  | call              (nnn : Addr)
  | skipEqVxByte      (vx : RegIx) (nn : Byte)
  | skipNeVxByte      (vx : RegIx) (nn : Byte)
  | skipEqVxVy        (vx vy : RegIx)
  | loadVxByte        (vx : RegIx) (nn : Byte)
  | addVxByte         (vx : RegIx) (nn : Byte)
  | loadVxVy          (vx vy : RegIx)
  | orVxVy            (vx vy : RegIx)
  | andVxVy           (vx vy : RegIx)
  | xorVxVy           (vx vy : RegIx)
  | addVxVy           (vx vy : RegIx)
  | subVxVy           (vx vy : RegIx)
  | shrVx             (vx vy : RegIx)
  | subnVxVy          (vx vy : RegIx)
  | shlVx             (vx vy : RegIx)
  | skipNeVxVy        (vx vy : RegIx)
  | loadI             (nnn : Addr)
  | jumpV0            (nnn : Addr)
  | rndVxByte         (vx : RegIx) (nn : Byte)
  | displaySprite     (vx vy : RegIx) (n : Nat)
  | skipKeyPressed    (vx : RegIx)
  | skipKeyNotPressed (vx : RegIx)
  | loadVxDt          (vx : RegIx)
  | waitKey           (vx : RegIx)
  | loadDtVx          (vx : RegIx)
  | loadStVx          (vx : RegIx)
  | addIVx            (vx : RegIx)
  | loadFontVx        (vx : RegIx)
  | storeBcd          (vx : RegIx)
  | storeRegs         (vx : RegIx)
  | loadRegs          (vx : RegIx)
deriving DecidableEq, Repr

end Sys2Proof
end

