-- ==== Sys2Proof/WellFormed.lean ====
section
/-! DEFINITION. Which instruction terms have an encoding. Register indices, immediates and addresses are in range by
their types; the sprite's row count is a count, and only 0 to 15 fits its field. -/

namespace Sys2Proof

/-- `n` is "a 4-bit unsigned count 0 to 15" (30_encoding.md R73). -/
def Instr.wellFormed : Instr → Bool
  | .clearDisplay => true
  | .ret => true
  | .jump _ => true
  | .call _ => true
  | .skipEqVxByte _ _ => true
  | .skipNeVxByte _ _ => true
  | .skipEqVxVy _ _ => true
  | .loadVxByte _ _ => true
  | .addVxByte _ _ => true
  | .loadVxVy _ _ => true
  | .orVxVy _ _ => true
  | .andVxVy _ _ => true
  | .xorVxVy _ _ => true
  | .addVxVy _ _ => true
  | .subVxVy _ _ => true
  | .shrVx _ _ => true
  | .subnVxVy _ _ => true
  | .shlVx _ _ => true
  | .skipNeVxVy _ _ => true
  | .loadI _ => true
  | .jumpV0 _ => true
  | .rndVxByte _ _ => true
  | .displaySprite _ _ n => decide (n ≤ 15)
  | .skipKeyPressed _ => true
  | .skipKeyNotPressed _ => true
  | .loadVxDt _ => true
  | .waitKey _ => true
  | .loadDtVx _ => true
  | .loadStVx _ => true
  | .addIVx _ => true
  | .loadFontVx _ => true
  | .storeBcd _ => true
  | .storeRegs _ => true
  | .loadRegs _ => true

end Sys2Proof
end

