-- ==== Sys2Proof/Decode.lean ====
section
/-! DEFINITION. The decoder: an ordered table of (pattern, mask) rows searched for the first match (30_encoding.md R74,
R75, R78), and the encoder written from the same table. -/

namespace Sys2Proof

/-- The operand fields of a word, extracted the same way for every format (R71). -/
structure Operands where
  vx  : RegIx
  vy  : RegIx
  n   : Nat
  nn  : Byte
  nnn : Addr
deriving DecidableEq, Repr

/-- The four bits `w[lo+3 : lo]` as a register index. -/
def regField (w : Word) (lo : Nat) : RegIx := Fin.ofNat 16 (w.toNat >>> lo)

/-- R71: `vx` = bits 8-11, `vy` = bits 4-7, `n` = bits 0-3, `nn` = bits 0-7, `nnn` = bits 0-11. -/
def operandsOf (w : Word) : Operands where
  vx  := regField w 8
  vy  := regField w 4
  n   := w.toNat % 16
  nn  := w.setWidth 8
  nnn := w.setWidth 12

/-- The six formats of R72. The masks of XY and X are general knowledge in the spec (log 6). -/
inductive Format where
  | op
  | nnn
  | xnn
  | xy
  | xyn
  | x
deriving DecidableEq, Repr

/-- The mask of a format (the table of R72). -/
def Format.mask : Format → Word
  | .op  => 0xFFFF
  | .nnn => 0xF000
  | .xnn => 0xF000
  | .xy  => 0xF00F
  | .xyn => 0xF000
  | .x   => 0xF0FF

/-- One row of R78: the instruction's name, the word its fixed bits match, its format, and the instruction its operand
fields make. -/
structure Row where
  name    : String
  pattern : Word
  format  : Format
  make    : Operands → Instr

/-- "A word matches entry *i* iff `(word & mask_i) == pattern_i`" (R74). -/
def Row.matchesWord (r : Row) (w : Word) : Bool := w &&& r.format.mask == r.pattern

/-- Rows 1 to 8 of R78. -/
def opcodeRowsControl : List Row := [
  ⟨"ClearDisplay", 0x00E0, .op,  fun _ => .clearDisplay⟩,
  ⟨"Return",       0x00EE, .op,  fun _ => .ret⟩,
  ⟨"Jump",         0x1000, .nnn, fun o => .jump o.nnn⟩,
  ⟨"Call",         0x2000, .nnn, fun o => .call o.nnn⟩,
  ⟨"SkipEqVxByte", 0x3000, .xnn, fun o => .skipEqVxByte o.vx o.nn⟩,
  ⟨"SkipNeVxByte", 0x4000, .xnn, fun o => .skipNeVxByte o.vx o.nn⟩,
  ⟨"SkipEqVxVy",   0x5000, .xy,  fun o => .skipEqVxVy o.vx o.vy⟩,
  ⟨"LoadVxByte",   0x6000, .xnn, fun o => .loadVxByte o.vx o.nn⟩]

/-- Rows 9 to 18 of R78. -/
def opcodeRowsArith : List Row := [
  ⟨"AddVxByte", 0x7000, .xnn, fun o => .addVxByte o.vx o.nn⟩,
  ⟨"LoadVxVy",  0x8000, .xy,  fun o => .loadVxVy o.vx o.vy⟩,
  ⟨"OrVxVy",    0x8001, .xy,  fun o => .orVxVy o.vx o.vy⟩,
  ⟨"AndVxVy",   0x8002, .xy,  fun o => .andVxVy o.vx o.vy⟩,
  ⟨"XorVxVy",   0x8003, .xy,  fun o => .xorVxVy o.vx o.vy⟩,
  ⟨"AddVxVy",   0x8004, .xy,  fun o => .addVxVy o.vx o.vy⟩,
  ⟨"SubVxVy",   0x8005, .xy,  fun o => .subVxVy o.vx o.vy⟩,
  ⟨"ShrVx",     0x8006, .xy,  fun o => .shrVx o.vx o.vy⟩,
  ⟨"SubnVxVy",  0x8007, .xy,  fun o => .subnVxVy o.vx o.vy⟩,
  ⟨"ShlVx",     0x800E, .xy,  fun o => .shlVx o.vx o.vy⟩]

/-- Rows 19 to 25 of R78. -/
def opcodeRowsWide : List Row := [
  ⟨"SkipNeVxVy",        0x9000, .xy,  fun o => .skipNeVxVy o.vx o.vy⟩,
  ⟨"LoadI",             0xA000, .nnn, fun o => .loadI o.nnn⟩,
  ⟨"JumpV0",            0xB000, .nnn, fun o => .jumpV0 o.nnn⟩,
  ⟨"RndVxByte",         0xC000, .xnn, fun o => .rndVxByte o.vx o.nn⟩,
  ⟨"DisplaySprite",     0xD000, .xyn, fun o => .displaySprite o.vx o.vy o.n⟩,
  ⟨"SkipKeyPressed",    0xE09E, .x,   fun o => .skipKeyPressed o.vx⟩,
  ⟨"SkipKeyNotPressed", 0xE0A1, .x,   fun o => .skipKeyNotPressed o.vx⟩]

/-- Rows 26 to 34 of R78. -/
def opcodeRowsMisc : List Row := [
  ⟨"LoadVxDt",   0xF007, .x, fun o => .loadVxDt o.vx⟩,
  ⟨"WaitKey",    0xF00A, .x, fun o => .waitKey o.vx⟩,
  ⟨"LoadDtVx",   0xF015, .x, fun o => .loadDtVx o.vx⟩,
  ⟨"LoadStVx",   0xF018, .x, fun o => .loadStVx o.vx⟩,
  ⟨"AddIVx",     0xF01E, .x, fun o => .addIVx o.vx⟩,
  ⟨"LoadFontVx", 0xF029, .x, fun o => .loadFontVx o.vx⟩,
  ⟨"StoreBcd",   0xF033, .x, fun o => .storeBcd o.vx⟩,
  ⟨"StoreRegs",  0xF055, .x, fun o => .storeRegs o.vx⟩,
  ⟨"LoadRegs",   0xF065, .x, fun o => .loadRegs o.vx⟩]

/-- The decode table in the order of R75 and R78. The patterns of the 30 rows the source does not print are general
knowledge in the spec (R77, log 6). -/
def opcodeTable : List Row := opcodeRowsControl ++ opcodeRowsArith ++ opcodeRowsWide ++ opcodeRowsMisc

/-- The first row of a table that a word matches (R74). -/
def firstRow : List Row → Word → Option Row
  | [], _ => none
  | r :: rest, w => bif r.matchesWord w then some r else firstRow rest w

/-- `Decode(word)` of R74: the instruction of the first matching row, or none for `Unrecognized`. -/
def decodeWord (w : Word) : Option Instr := (firstRow opcodeTable w).map fun r => r.make (operandsOf w)

/-- Why bytes are no instruction. -/
inductive DecodeError where
  /-- the word matches no row of R78 (R79); safe: the step is fatal as R201 says -/
  | unrecognized (w : Word)
  /-- fewer than the two bytes an instruction has (R70); safe: the fetch always supplies two -/
  | truncated
deriving DecidableEq, Repr

/-- The 16-bit word of two bytes, the one at the lower address the more significant (20_memory.md R56, R57). -/
def wordOfBytes (hi lo : Byte) : Word := hi ++ lo

/-- Decode the instruction at the front of a list of bytes and return the bytes after it (R70, R74). -/
def decode : List Byte → Except DecodeError (Instr × List Byte)
  | hi :: lo :: rest =>
    match decodeWord (wordOfBytes hi lo) with
    | some i => .ok (i, rest)
    | none => .error (.unrecognized (wordOfBytes hi lo))
  | _ => .error .truncated

/-- A register index in bits 11-8 (R71). -/
def placeX (vx : RegIx) : Word := BitVec.ofNat 16 vx.val <<< 8

/-- A register index in bits 7-4 (R71). -/
def placeY (vy : RegIx) : Word := BitVec.ofNat 16 vy.val <<< 4

/-- An `nn` field in bits 7-0 (R71). -/
def placeNN (nn : Byte) : Word := nn.setWidth 16

/-- An `nnn` field in bits 11-0 (R71). -/
def placeNNN (nnn : Addr) : Word := nnn.setWidth 16

/-- An `n` field in bits 3-0 (R71). -/
def placeN (n : Nat) : Word := BitVec.ofNat 16 n

/-- The word of an instruction: its row's pattern OR its operand fields (R84). -/
def encode : Instr → Word
  | .clearDisplay => 0x00E0
  | .ret => 0x00EE
  | .jump nnn => 0x1000 ||| placeNNN nnn
  | .call nnn => 0x2000 ||| placeNNN nnn
  | .skipEqVxByte vx nn => 0x3000 ||| placeX vx ||| placeNN nn
  | .skipNeVxByte vx nn => 0x4000 ||| placeX vx ||| placeNN nn
  | .skipEqVxVy vx vy => 0x5000 ||| placeX vx ||| placeY vy
  | .loadVxByte vx nn => 0x6000 ||| placeX vx ||| placeNN nn
  | .addVxByte vx nn => 0x7000 ||| placeX vx ||| placeNN nn
  | .loadVxVy vx vy => 0x8000 ||| placeX vx ||| placeY vy
  | .orVxVy vx vy => 0x8001 ||| placeX vx ||| placeY vy
  | .andVxVy vx vy => 0x8002 ||| placeX vx ||| placeY vy
  | .xorVxVy vx vy => 0x8003 ||| placeX vx ||| placeY vy
  | .addVxVy vx vy => 0x8004 ||| placeX vx ||| placeY vy
  | .subVxVy vx vy => 0x8005 ||| placeX vx ||| placeY vy
  | .shrVx vx vy => 0x8006 ||| placeX vx ||| placeY vy
  | .subnVxVy vx vy => 0x8007 ||| placeX vx ||| placeY vy
  | .shlVx vx vy => 0x800E ||| placeX vx ||| placeY vy
  | .skipNeVxVy vx vy => 0x9000 ||| placeX vx ||| placeY vy
  | .loadI nnn => 0xA000 ||| placeNNN nnn
  | .jumpV0 nnn => 0xB000 ||| placeNNN nnn
  | .rndVxByte vx nn => 0xC000 ||| placeX vx ||| placeNN nn
  | .displaySprite vx vy n => 0xD000 ||| placeX vx ||| placeY vy ||| placeN n
  | .skipKeyPressed vx => 0xE09E ||| placeX vx
  | .skipKeyNotPressed vx => 0xE0A1 ||| placeX vx
  | .loadVxDt vx => 0xF007 ||| placeX vx
  | .waitKey vx => 0xF00A ||| placeX vx
  | .loadDtVx vx => 0xF015 ||| placeX vx
  | .loadStVx vx => 0xF018 ||| placeX vx
  | .addIVx vx => 0xF01E ||| placeX vx
  | .loadFontVx vx => 0xF029 ||| placeX vx
  | .storeBcd vx => 0xF033 ||| placeX vx
  | .storeRegs vx => 0xF055 ||| placeX vx
  | .loadRegs vx => 0xF065 ||| placeX vx

/-- The two bytes of a word as they lie in memory, most significant first (20_memory.md R57). -/
def bytesOfWord (w : Word) : List Byte := [w.extractLsb' 8 8, w.extractLsb' 0 8]

/-- The bytes of an instruction as they lie in memory. -/
def encodeBytes (i : Instr) : List Byte := bytesOfWord (encode i)

/-- The name R78 gives an instruction's row, the "mnemonic" of spec/opcode_table.json. -/
def Instr.rowName : Instr → String
  | .clearDisplay => "ClearDisplay"
  | .ret => "Return"
  | .jump _ => "Jump"
  | .call _ => "Call"
  | .skipEqVxByte _ _ => "SkipEqVxByte"
  | .skipNeVxByte _ _ => "SkipNeVxByte"
  | .skipEqVxVy _ _ => "SkipEqVxVy"
  | .loadVxByte _ _ => "LoadVxByte"
  | .addVxByte _ _ => "AddVxByte"
  | .loadVxVy _ _ => "LoadVxVy"
  | .orVxVy _ _ => "OrVxVy"
  | .andVxVy _ _ => "AndVxVy"
  | .xorVxVy _ _ => "XorVxVy"
  | .addVxVy _ _ => "AddVxVy"
  | .subVxVy _ _ => "SubVxVy"
  | .shrVx _ _ => "ShrVx"
  | .subnVxVy _ _ => "SubnVxVy"
  | .shlVx _ _ => "ShlVx"
  | .skipNeVxVy _ _ => "SkipNeVxVy"
  | .loadI _ => "LoadI"
  | .jumpV0 _ => "JumpV0"
  | .rndVxByte _ _ => "RndVxByte"
  | .displaySprite _ _ _ => "DisplaySprite"
  | .skipKeyPressed _ => "SkipKeyPressed"
  | .skipKeyNotPressed _ => "SkipKeyNotPressed"
  | .loadVxDt _ => "LoadVxDt"
  | .waitKey _ => "WaitKey"
  | .loadDtVx _ => "LoadDtVx"
  | .loadStVx _ => "LoadStVx"
  | .addIVx _ => "AddIVx"
  | .loadFontVx _ => "LoadFontVx"
  | .storeBcd _ => "StoreBcd"
  | .storeRegs _ => "StoreRegs"
  | .loadRegs _ => "LoadRegs"

/-- What the decoder reads from an instruction whose bits are `w`, numbered as spec/opcode_table.json numbers them: one
16-bit word, laid out big-endian, every bit above `nbits` zero. -/
def decodeTableWord (nbits w : Nat) : Option Instr :=
  match decode (bytesOfWord (BitVec.ofNat 16 (w % 2 ^ nbits))) with
  | .ok (i, _) => some i
  | .error _ => none

end Sys2Proof
end

