-- ==== Sys2Proof/Config.lean ====
section
/-! DEFINITION. What an implementation fixes (the parameters of 00_scope.md R6) and the values the spec leaves free. -/

namespace Sys2Proof

/-- What ShlVx writes to the flag register: the high bit as 0 or 1, or the masked byte (R6, 92 D4). -/
inductive ShiftFlag where
  | normalized
  | raw
deriving DecidableEq, Repr

/-- The glyph area: glyph `d` is the five bytes at addresses `5*d` to `5*d + 4` (20_memory.md R51). -/
abbrev Glyphs := Vector (Vector Byte 5) 16

/-- The named parameters of 00_scope.md R6, fixed for one machine; the draw `rnd` is an input and stands in State.
`stackDepth = none` is `unbounded`. -/
structure Config where
  shiftFlag    : ShiftFlag
  stuckPcFatal : Bool
  stackDepth   : Option Nat
  glyphs       : Glyphs
deriving DecidableEq, Repr

/-- The pressed-key set of a `Step` call whose argument the model leaves open: free, one value per call
(47_keys.md R183; log 1). -/
opaque Config.freeKeys : Nat → KeyMask

/-- The random byte where the host has fixed none: a draw under no law, one per executed RndVxByte
(45_random.md R160, 93 U9; log 2). -/
opaque Config.freeDraw : Nat → Byte

end Sys2Proof
end

