-- ==== Sys2Proof/Machine/Parameters.lean ====
section
/-! DEFINITION. The parameter values of the machine that State.reset describes: the spec's defaults (00_scope.md R6) and
the font of 20_memory.md R52. -/

namespace Sys2Proof.Machine

/-- The glyphs of the digits 0 to 7 (20_memory.md R52). -/
def glyphsLow : Vector (Vector Byte 5) 8 := #v[
  #v[0xF0, 0x90, 0x90, 0x90, 0xF0],
  #v[0x20, 0x60, 0x20, 0x20, 0x70],
  #v[0xF0, 0x10, 0xF0, 0x80, 0xF0],
  #v[0xF0, 0x10, 0xF0, 0x10, 0xF0],
  #v[0x90, 0x90, 0xF0, 0x10, 0x10],
  #v[0xF0, 0x80, 0xF0, 0x10, 0xF0],
  #v[0xF0, 0x80, 0xF0, 0x90, 0xF0],
  #v[0xF0, 0x10, 0x20, 0x40, 0x40]]

/-- The glyphs of the digits 8 to F (20_memory.md R52). -/
def glyphsHigh : Vector (Vector Byte 5) 8 := #v[
  #v[0xF0, 0x90, 0xF0, 0x90, 0xF0],
  #v[0xF0, 0x90, 0xF0, 0x10, 0xF0],
  #v[0xF0, 0x90, 0xF0, 0x90, 0x90],
  #v[0xE0, 0x90, 0xE0, 0x90, 0xE0],
  #v[0xF0, 0x80, 0x80, 0x80, 0xF0],
  #v[0xE0, 0x90, 0x90, 0x90, 0xE0],
  #v[0xF0, 0x80, 0xF0, 0x80, 0xF0],
  #v[0xF0, 0x80, 0xF0, 0x80, 0x80]]

/-- `GLYPHS`. PRESUMED: the source prints no glyph byte; the values are the spec's general knowledge (GK2, D13; log 5). -/
def standardGlyphs : Glyphs := glyphsLow ++ glyphsHigh

/-- The defaults of 00_scope.md R6: normalized shift flag, fatal stuck pc, unbounded stack.
DESIGN CHOICE: the source leaves all three open (log 3). -/
def standardConfig : Config where
  shiftFlag    := .normalized
  stuckPcFatal := true
  stackDepth   := none
  glyphs       := standardGlyphs

end Sys2Proof.Machine
end

