-- ==== Sys2Proof/Machine/State.lean ====
section
/-! DEFINITION. The state of the CORE (10_state.md R20), the fatal conditions (60_exceptions.md R200), the refusals, and
the state after Reset (70_reset_and_hazards.md R230). -/

namespace Sys2Proof.Machine

/-- Memory: the bytes that differ from the reset contents, by rising address (20_memory.md R50; log 5). -/
abbrev Memory := List Host.Cell

/-- The display buffer: 32 rows of 64 one-bit pixels, row `y` from the top; bit `x` of a row is column `x`
(10_state.md R33; log 25). -/
abbrev Display := Vector (BitVec 64) 32

/-- The closed list of fatal conditions of R200; none carries a payload (R207). A fault is a terminal outcome (R209). -/
inductive Fault where
  /-- raised by the decode phase of a step on a word that matches no row (R201); safe: the spec's own condition -/
  | unrecognizedOpcode
  /-- raised by Return on an empty call stack (R202); safe: the spec's own condition -/
  | stackUnderflow
  /-- raised by the self-check after Jump, JumpV0, Call or Return where `STUCK_PC_FATAL` holds (R203);
  safe: at the latest one call earlier than the engine (log 9) -/
  | stuckProgramCounter
  /-- raised by the fetch, StoreRegs, LoadRegs, StoreBcd, DisplaySprite and the host's Load at an address of 4096 or more
  (R204); safe: the spec's own condition -/
  | memoryBoundsFault
  /-- raised by DisplaySprite where a row's origin is off the display (R205); safe: the engine may skip or clip there
  (log 10) -/
  | displayRangeFault
  /-- raised by Call on a full stack where `STACK_DEPTH` is finite (R206); safe: the spec's own condition -/
  | stackOverflow
deriving DecidableEq, Repr

/-- What the model does not run. -/
inductive Refusal where
  /-- raised by exec for an instruction that has no meaning yet; safe: nothing is proved of it -/
  | notModelled (mnemonic : String)
  /-- raised by every host operation but Reset on a halted engine: "no operation of the CORE has a defined effect"
  (10_state.md R35, 93 U17); safe: nothing follows a fatal condition (log 14) -/
  | engineHalted (kind : Fault)
deriving DecidableEq, Repr

/-- The complete state of the CORE (10_state.md R20), its parameters (00_scope.md R6), and the model's own fields for the
arguments of the coming `Step` call (log 1, log 2). -/
structure State where
  /-- the general registers `x[0]` to `x[15]`; `x[15]` is `VF` (R21, R22) -/
  x      : Vector Byte 16
  /-- the index register (R27) -/
  I      : Word
  /-- the delay timer (R28) -/
  DT     : Byte
  /-- the sound timer (R28) -/
  ST     : Byte
  /-- the program counter (R24) -/
  pc     : Word
  /-- the call stack, most recent return address first (R29) -/
  stack  : List Word
  /-- the 4096 bytes of memory (R34, 20_memory.md R50) -/
  mem    : Memory
  /-- the display buffer (R33) -/
  fb     : Display
  /-- none, or the kind of the fatal condition that halted the engine (R35) -/
  halted : Option Fault
  /-- the parameters, fixed for one machine: no operation changes them (R32; log 3) -/
  cfg    : Config
  /-- the model's own: the `keys` argument of the coming `Step`, or none where it is left open (log 1) -/
  keys   : Option KeyMask
  /-- the model's own: the draw supplied for the coming RndVxByte, or none where it is left open (log 2) -/
  rnd    : Option Byte
  /-- the model's own: how many `Step` calls have passed, the index of a free key set (log 1) -/
  steps  : Nat
  /-- the model's own: how many draws have been consumed, the index of a free draw (log 2) -/
  drawn  : Nat
deriving DecidableEq, Repr

/-- The state after `Reset()` of a machine with parameters `cfg` (70_reset_and_hazards.md R230). Only `pc` and the glyph
area are the source's; the other values are the spec's decision D12. DESIGN CHOICE (log 4, log 5); the model's own last
four fields are DESIGN CHOICE (log 1, log 2). -/
def State.resetWith (cfg : Config) : State where
  x      := Vector.replicate 16 0
  I      := 0
  DT     := 0
  ST     := 0
  pc     := 0x0200
  stack  := []
  mem    := []
  fb     := Vector.replicate 32 0
  halted := none
  cfg    := cfg
  keys   := some 0
  rnd    := none
  steps  := 0
  drawn  := 0

/-- The machine right after reset, with the spec's default parameters. -/
def State.reset : State := State.resetWith standardConfig

end Sys2Proof.Machine
end

