-- ==== Sys2Proof/Machine/Ops.lean ====
section
/-! DEFINITION. The operations that the meanings share: access to each piece of state, memory, the call stack, taking a
fatal condition, and the end of a step (00_scope.md R8). -/

namespace Sys2Proof.Machine

/-- What an instruction or a step ends in. -/
abbrev Result := Host.Outcome State Fault Refusal

/-! ## Reading and writing the registers -/

/-- `x[i]` (R8). -/
def State.reg (s : State) (i : RegIx) : Byte := s.x[i]

/-- `x[i] <- v` (R8). -/
def State.setReg (s : State) (i : RegIx) (v : Byte) : State := { s with x := s.x.set i v }

/-- The index of the flag register `VF` (10_state.md R22). -/
def vF : RegIx := 15

/-- `x[15] <- v`: the write of the flag register. -/
def State.setFlag (s : State) (v : Byte) : State := s.setReg vF v

/-- A register file after `x[k] <- bs[0]`, `x[k + 1] <- bs[1]` and so on, in rising order (41_load_store.md R124). -/
def loadRegsFrom (x : Vector Byte 16) : Nat → List Byte → Vector Byte 16
  | _, [] => x
  | k, v :: vs => loadRegsFrom (x.setIfInBounds k v) (k + 1) vs

/-- `x[k] <- bs[k]` for each `k < bs.length`; the registers above keep their values (41_load_store.md R124). -/
def State.setFirstRegs (s : State) (bs : List Byte) : State := { s with x := loadRegsFrom s.x 0 bs }

/-- `x[0] .. x[vx]`, the `vx + 1` registers of a block store in rising order (41_load_store.md R123). -/
def State.firstRegs (s : State) (vx : RegIx) : List Byte := s.x.toList.take (vx.val + 1)

/-- `I <- v`. -/
def State.setI (s : State) (v : Word) : State := { s with I := v }

/-- `DT <- v`. -/
def State.setDT (s : State) (v : Byte) : State := { s with DT := v }

/-- `ST <- v`. -/
def State.setST (s : State) (v : Byte) : State := { s with ST := v }

/-- `pc <- v`. -/
def State.setPc (s : State) (v : Word) : State := { s with pc := v }

/-- Replace the call stack. -/
def State.setStack (s : State) (st : List Word) : State := { s with stack := st }

/-- Replace memory. -/
def State.setMem (s : State) (m : Memory) : State := { s with mem := m }

/-- Replace the display buffer. -/
def State.setFb (s : State) (fb : Display) : State := { s with fb := fb }

/-! ## Taking a fatal condition -/

/-- TAKING A FATAL CONDITION, for every fault of the machine: "the engine reports the specific condition and halts".
There is no vector, no saved pc and no state a claim may read (60_exceptions.md R209; log 14). -/
def raise (k : Fault) : Result := .fault k

/-- What a fatal condition leaves to the operations after it: `halted` holds the kind. Every other component is
unspecified (R209); the record keeps the old ones, and no operation but Reset accepts the state, which keeps none. -/
def State.haltWith (s : State) (k : Fault) : State := { s with halted := some k }

/-- Go on with the value, or take the fatal condition. -/
def orRaise {α : Type} (e : Except Fault α) (f : α → Result) : Result :=
  match e with
  | .ok a => f a
  | .error k => raise k

/-! ## Memory (20_memory.md) -/

/-- The number of bytes of memory (R50). -/
def memSize : Nat := 4096

/-- What an address that memory does not list reads as: its reset contents, the glyph byte at 0 to 79 and 0x00 above
(R50, R51, R52; log 5). -/
def unlisted (g : Glyphs) (a : Nat) : Byte :=
  if h : a < 80 then g[a / 5][a % 5] else 0

/-- The byte at address `a`. -/
def Memory.read (g : Glyphs) : Memory → Nat → Byte
  | [], a => unlisted g a
  | (b, w) :: rest, a => if a = b then w else Memory.read g rest a

/-- Put a cell at its place in rising order, replacing one of the same address. -/
def Memory.insertCell (a : Nat) (v : Byte) : Memory → Memory
  | [] => [(a, v)]
  | (b, w) :: rest =>
    if a < b then (a, v) :: (b, w) :: rest
    else if a = b then (a, v) :: rest
    else (b, w) :: Memory.insertCell a v rest

/-- Take an address out of the list. -/
def Memory.eraseCell (a : Nat) (m : Memory) : Memory := m.filter fun c => c.1 != a

/-- Store the byte `v` at `a` and keep the canonical form: a byte equal to the unlisted one is not listed. -/
def Memory.write (g : Glyphs) (m : Memory) (a : Nat) (v : Byte) : Memory :=
  if v = unlisted g a then Memory.eraseCell a m else Memory.insertCell a v m

/-- Store bytes from `a` on, in rising order of addresses. -/
def Memory.writeAll (g : Glyphs) : Memory → Nat → List Byte → Memory
  | m, _, [] => m
  | m, a, v :: vs => Memory.writeAll g (Memory.write g m a v) (a + 1) vs

/-- The addresses of a memory rise strictly from at least `lo`. -/
def Memory.risesFrom (lo : Nat) : Memory → Bool
  | [] => true
  | c :: rest => decide (lo ≤ c.1) && Memory.risesFrom (c.1 + 1) rest

/-- The canonical form: addresses rise strictly, all are below 4096, and no cell holds the byte that its address reads
as when it is not listed. -/
def Memory.wf (g : Glyphs) (m : Memory) : Bool :=
  Memory.risesFrom 0 m && m.all fun c => decide (c.1 < memSize) && c.2 != unlisted g c.1

/-- `MemRead(addr, 1)`: bounds-checked (R53). -/
def readByte (s : State) (a : Nat) : Except Fault Byte :=
  if a < memSize then .ok (s.mem.read s.cfg.glyphs a) else .error .memoryBoundsFault

/-- `MemWrite(addr, 1, v)`: bounds-checked (R54). -/
def writeByte (s : State) (a : Nat) (v : Byte) : Except Fault State :=
  if a < memSize then .ok (s.setMem (s.mem.write s.cfg.glyphs a v)) else .error .memoryBoundsFault

/-- `n` bytes read one by one in rising order from address `a` (R59). -/
def readBytes (s : State) : Nat → Nat → Except Fault (List Byte)
  | _, 0 => .ok []
  | a, n + 1 =>
    match readByte s a with
    | .error k => .error k
    | .ok b =>
      match readBytes s (a + 1) n with
      | .error k => .error k
      | .ok bs => .ok (b :: bs)

/-- Bytes stored one by one in rising order from address `a` (R59). -/
def writeBytes (s : State) : Nat → List Byte → Except Fault State
  | _, [] => .ok s
  | a, v :: vs =>
    match writeByte s a v with
    | .error k => .error k
    | .ok t => writeBytes t (a + 1) vs

/-- `MemRead(pc, 2)`, the instruction fetch: two bounds-checked bytes, big-endian (R56). -/
def fetch (s : State) : Except Fault Word :=
  match readByte s s.pc.toNat with
  | .error k => .error k
  | .ok hi =>
    match readByte s (s.pc.toNat + 1) with
    | .error k => .error k
    | .ok lo => .ok (wordOfBytes hi lo)

/-- The two bytes of a word stored at `pc` and `pc + 1`, where the next fetch reads them; a `pc` that no fetch can read
keeps the state as it is (log 16). -/
def placeAtPc (s : State) (w : Word) : State :=
  match writeBytes s s.pc.toNat (bytesOfWord w) with
  | .ok t => t
  | .error _ => s

/-! ## The call stack (10_state.md R29 to R31) -/

/-- Whether a stack of `n` entries has reached its capacity. -/
def stackFull (depth : Option Nat) (n : Nat) : Bool :=
  match depth with
  | none => false
  | some d => decide (d ≤ n)

/-- `push(stack, v)` (R30). -/
def push (s : State) (v : Word) : Except Fault State :=
  if stackFull s.cfg.stackDepth s.stack.length then .error .stackOverflow else .ok (s.setStack (v :: s.stack))

/-- `pop(stack)`: the most recent entry and the state without it (R31). -/
def pop (s : State) : Except Fault (Word × State) :=
  match s.stack with
  | [] => .error .stackUnderflow
  | a :: rest => .ok (a, s.setStack rest)

/-! ## The end of a step (40_step_and_control_flow.md R103, R104) -/

/-- The four outcomes of R103. -/
inductive PcOutcome where
  | increment
  | skipNext
  | stay
  | jumpTo (a : Word)
deriving DecidableEq, Repr

/-- The effect of an outcome on `pc` (the table of R103). -/
def PcOutcome.target (o : PcOutcome) (pc0 : Word) : Word :=
  match o with
  | .increment => pc0 + 2
  | .skipNext => pc0 + 4
  | .stay => pc0
  | .jumpTo a => a

/-- SkipNext where the condition holds, else Increment (R103). -/
def skipIf (c : Bool) : PcOutcome := if c then .skipNext else .increment

/-- The self-check of R104: a non-blocked step left `pc` as it was, and the policy calls that fatal. -/
def stuck (o : PcOutcome) (s : State) : Bool :=
  decide (o ≠ .stay) && decide (o.target s.pc = s.pc) && s.cfg.stuckPcFatal

/-- The last two phases of a step: apply the outcome (R103), then the self-check (R104). The instruction has not
written `pc` (R102), so `s.pc` is `pc0`. -/
def finish (o : PcOutcome) (s : State) : Result :=
  if stuck o s then raise .stuckProgramCounter else .next (s.setPc (o.target s.pc))

/-! ## The arguments of the coming step -/

/-- The pressed-key set of this step: the host's argument, or a free one (47_keys.md R183; log 1). -/
def keysNow (s : State) : KeyMask := s.keys.getD (Config.freeKeys s.steps)

/-- The random byte of this step: the host's draw, or a free one (45_random.md R160; log 2). -/
def drawNow (s : State) : Byte := s.rnd.getD (Config.freeDraw s.drawn)

/-- A draw is consumed by an executed RndVxByte and by nothing else (R160): the next one is open. -/
def State.consumeDraw (s : State) : State := { s with rnd := none, drawn := s.drawn + 1 }

/-- The key set is the input of one step only (R183): after a step the next call's is open. -/
def State.nextCall (s : State) : State := { s with keys := none, steps := s.steps + 1 }

/-- The arguments of a `Step(keys, rnd)` call (R100). -/
def State.withArguments (s : State) (keys : KeyMask) (rnd : Byte) : State :=
  { s with keys := some keys, rnd := some rnd }

end Sys2Proof.Machine
end

