-- ==== Sys2Proof/Machine/Operands.lean ====
section
/-! DEFINITION. The operand forms: zero extension of fields, the one addressing mode, and the key named by a register. -/

namespace Sys2Proof.Machine

/-- `zext_16(nnn)` (30_encoding.md R73). -/
def addrWord (nnn : Addr) : Word := nnn.setWidth 16

/-- `zext_16(v)` of an 8-bit value (00_scope.md R8). -/
def byteWord (v : Byte) : Word := v.setWidth 16

/-- The one addressing mode: `I + k`, a natural number without wrap-around (41_load_store.md R127). -/
def effAddr (s : State) (k : Nat) : Nat := s.I.toNat + k

/-- Whether the key whose code is `v` is in the set: `v <= 15 and keys[v] = 1`, the whole 8-bit value compared
(47_keys.md R180, 92 D28). -/
def keyPressed (keys : KeyMask) (v : Byte) : Bool := decide (v.toNat ≤ 15) && keys.getLsbD v.toNat

/-- The lowest pressed key at or above code `16 - fuel`, as WaitKey selects it. -/
def leastKeyFrom (keys : KeyMask) : Nat → Byte
  | 0 => 0
  | fuel + 1 => if keys.getLsbD (15 - fuel) then BitVec.ofNat 8 (15 - fuel) else leastKeyFrom keys fuel

/-- "The least k in 0..15 with keys[k] = 1" of a set that is not empty (47_keys.md R182, 92 D11). -/
def leastKey (keys : KeyMask) : Byte := leastKeyFrom keys 16

/-- The hundreds, tens and ones digits of an unsigned byte (41_load_store.md R125). -/
def bcdDigits (v : Byte) : List Byte :=
  [BitVec.ofNat 8 (v.toNat / 100), BitVec.ofNat 8 (v.toNat / 10 % 10), BitVec.ofNat 8 (v.toNat % 10)]

end Sys2Proof.Machine
end

