-- ==== Sys2Proof/Machine/Flags.lean ====
section
/-! DEFINITION. The values written to the flag register `VF` (10_state.md R39), each computed from the operands as read
at the start of the instruction. -/

namespace Sys2Proof.Machine

/-- A condition as the flag byte 0 or 1. -/
def flagByte (c : Bool) : Byte := if c then 1 else 0

/-- AddVxVy: 1 iff `b > 255 - a` (43_arithmetic.md R141). -/
def carryFlag (a b : Byte) : Byte := flagByte (decide (b.toNat > 255 - a.toNat))

/-- SubVxVy and SubnVxVy: 1 iff the minuend exceeds the subtrahend, strictly (43_arithmetic.md R142, R143, 90 C3). -/
def exceedsFlag (minuend subtrahend : Byte) : Byte := flagByte (decide (minuend.toNat > subtrahend.toNat))

/-- ShrVx: `v AND 0x01` (44_bitops.md R153). -/
def shrFlag (v : Byte) : Byte := v &&& 0x01

/-- ShlVx: bit 7 of the operand as 0 or 1, or the masked byte `v AND 0x80`, by `SHIFT_FLAG` (44_bitops.md R154). -/
def shlFlag (f : ShiftFlag) (v : Byte) : Byte :=
  match f with
  | .normalized => flagByte (v.getLsbD 7)
  | .raw => v &&& 0x80

/-- The two writes of a flag-writing instruction, flag first and destination second (10_state.md R23). -/
def State.setFlagThenReg (s : State) (flag : Byte) (vx : RegIx) (v : Byte) : State := (s.setFlag flag).setReg vx v

end Sys2Proof.Machine
end

