-- ==== Sys2Proof/Machine/Arithmetic.lean ====
section
/-! DEFINITION. The arithmetic instructions (43_arithmetic.md R140 to R144). All operands are read before any write
(10_state.md R23). -/

namespace Sys2Proof.Machine

/-- AddVxByte(vx, nn) (R140): no flag. -/
def execAddVxByte (vx : RegIx) (nn : Byte) (s : State) : Result := finish .increment (s.setReg vx (s.reg vx + nn))

/-- AddVxVy(vx, vy) (R141). -/
def execAddVxVy (vx vy : RegIx) (s : State) : Result :=
  finish .increment (s.setFlagThenReg (carryFlag (s.reg vx) (s.reg vy)) vx (s.reg vx + s.reg vy))

/-- SubVxVy(vx, vy) (R142): the minuend is `x[vx]`. -/
def execSubVxVy (vx vy : RegIx) (s : State) : Result :=
  finish .increment (s.setFlagThenReg (exceedsFlag (s.reg vx) (s.reg vy)) vx (s.reg vx - s.reg vy))

/-- SubnVxVy(vx, vy) (R143): the minuend is `x[vy]`. -/
def execSubnVxVy (vx vy : RegIx) (s : State) : Result :=
  finish .increment (s.setFlagThenReg (exceedsFlag (s.reg vy) (s.reg vx)) vx (s.reg vy - s.reg vx))

/-- AddIVx(vx) (R144): 16 bits, wrapping (92 D9; log 11), no flag. -/
def execAddIVx (vx : RegIx) (s : State) : Result := finish .increment (s.setI (s.I + byteWord (s.reg vx)))

end Sys2Proof.Machine
end

