-- ==== Sys2Proof/Machine/BitOps.lean ====
section
/-! DEFINITION. The bit operations (44_bitops.md R150 to R155). The logic operations write no flag. -/

namespace Sys2Proof.Machine

/-- OrVxVy(vx, vy) (R150). -/
def execOrVxVy (vx vy : RegIx) (s : State) : Result := finish .increment (s.setReg vx (s.reg vx ||| s.reg vy))

/-- AndVxVy(vx, vy) (R151). -/
def execAndVxVy (vx vy : RegIx) (s : State) : Result := finish .increment (s.setReg vx (s.reg vx &&& s.reg vy))

/-- XorVxVy(vx, vy) (R152). -/
def execXorVxVy (vx vy : RegIx) (s : State) : Result := finish .increment (s.setReg vx (s.reg vx ^^^ s.reg vy))

/-- ShrVx(vx) (R153): the operand is `x[vx]`; the `vy` field is ignored (R155; log 7). -/
def execShrVx (vx _vy : RegIx) (s : State) : Result :=
  finish .increment (s.setFlagThenReg (shrFlag (s.reg vx)) vx (s.reg vx >>> 1))

/-- ShlVx(vx) (R154): the operand is `x[vx]`; the `vy` field is ignored (R155; log 7). -/
def execShlVx (vx _vy : RegIx) (s : State) : Result :=
  finish .increment (s.setFlagThenReg (shlFlag s.cfg.shiftFlag (s.reg vx)) vx (s.reg vx <<< 1))

end Sys2Proof.Machine
end

