-- ==== Sys2Proof/Machine/Control.lean ====
section
/-! DEFINITION. The control-flow instructions (40_step_and_control_flow.md R105 to R112). -/

namespace Sys2Proof.Machine

/-- Return (R105). -/
def execReturn (s : State) : Result := orRaise (pop s) fun p => finish (.jumpTo p.1) p.2

/-- Call(nnn) (R106): the return address is `pc0 + 2`. -/
def execCall (nnn : Addr) (s : State) : Result :=
  orRaise (push s (s.pc + 2)) fun t => finish (.jumpTo (addrWord nnn)) t

/-- Jump(nnn) (R107). -/
def execJump (nnn : Addr) (s : State) : Result := finish (.jumpTo (addrWord nnn)) s

/-- JumpV0(nnn) (R108): a 16-bit sum, not reduced to 12 bits. -/
def execJumpV0 (nnn : Addr) (s : State) : Result := finish (.jumpTo (addrWord nnn + byteWord (s.reg 0))) s

/-- SkipEqVxByte(vx, nn) (R109). -/
def execSkipEqVxByte (vx : RegIx) (nn : Byte) (s : State) : Result := finish (skipIf (s.reg vx == nn)) s

/-- SkipNeVxByte(vx, nn) (R110). -/
def execSkipNeVxByte (vx : RegIx) (nn : Byte) (s : State) : Result := finish (skipIf (s.reg vx != nn)) s

/-- SkipEqVxVy(vx, vy) (R111). -/
def execSkipEqVxVy (vx vy : RegIx) (s : State) : Result := finish (skipIf (s.reg vx == s.reg vy)) s

/-- SkipNeVxVy(vx, vy) (R112). -/
def execSkipNeVxVy (vx vy : RegIx) (s : State) : Result := finish (skipIf (s.reg vx != s.reg vy)) s

end Sys2Proof.Machine
end

