-- ==== Sys2Proof/Machine/DisplayOps.lean ====
section
/-! DEFINITION. The display buffer component and the display instructions (46_display.md R165 to R171). -/

namespace Sys2Proof.Machine

/-- The number of columns, rows and pixels (10_state.md R33). -/
def displayWidth : Nat := 64
@[inherit_doc displayWidth] def displayHeight : Nat := 32
@[inherit_doc displayWidth] def displaySize : Nat := 2048

/-- The row of the pixel that linear position `p` reaches, `fb[p mod 2048]` (R166). -/
def rowOf (p : Nat) : Fin 32 := Fin.ofNat 32 (p / 64)

/-- The pixel at linear position `p`, on the ring of 2048 positions (R166). -/
def pixel (fb : Display) (p : Nat) : Bool := fb[rowOf p].getLsbD (p % 64)

/-- Flip the pixel at linear position `p` where `bit` is 1 (R167). -/
def xorPixel (fb : Display) (p : Nat) (bit : Bool) : Display :=
  if bit then fb.set (rowOf p) (fb[rowOf p] ^^^ (1#64 <<< (p % 64))) else fb

/-- The eight pixels of a sprite row: "bit `7 - b` is the pixel `b` positions further along" (R167). -/
def rowBits (r : Byte) : List Bool := (List.range 8).map fun b => r.getLsbD (7 - b)

/-- The inner loop of R168: XOR pixels from linear position `p` on; the second component says whether a pixel so far
went from set to unset. -/
def blitBits : Nat → List Bool → Display × Bool → Display × Bool
  | _, [], acc => acc
  | p, b :: bs, (fb, coll) => blitBits (p + 1) bs (xorPixel fb p b, coll || (pixel fb p && b))

/-- The outer loop of `WriteSprite` (R168): row after row from row `y` on, each row's origin range-checked (R169). The
row number is a natural number (92 D8). -/
def blitRows (x0 : Nat) : Nat → List Byte → Display × Bool → Except Fault (Display × Bool)
  | _, [], acc => .ok acc
  | y, r :: rest, acc =>
    if x0 < displayWidth ∧ y < displayHeight then
      blitRows x0 (y + 1) rest (blitBits (y * displayWidth + x0) (rowBits r) acc)
    else .error .displayRangeFault

/-- `WriteSprite(x0, y0, rows)`: the new buffer and whether any pixel collided (R168). -/
def writeSprite (x0 y0 : Nat) (rows : List Byte) (fb : Display) : Except Fault (Display × Bool) :=
  blitRows x0 y0 rows (fb, false)

/-- `Clear()`: every pixel 0 (R170). -/
def clearedDisplay : Display := Vector.replicate 32 0

/-- ClearDisplay (R170). -/
def execClearDisplay (s : State) : Result := finish .increment (s.setFb clearedDisplay)

/-- DisplaySprite(vx, vy, n) (R171): all sprite bytes are read before the blit begins. -/
def execDisplaySprite (vx vy : RegIx) (n : Nat) (s : State) : Result :=
  orRaise (readBytes s (effAddr s 0) n) fun rows =>
  orRaise (writeSprite (s.reg vx).toNat (s.reg vy).toNat rows s.fb) fun p =>
  finish .increment ((s.setFb p.1).setFlag (flagByte p.2))

end Sys2Proof.Machine
end

