-- ==== Sys2Proof/Machine/Keys.lean ====
section
/-! DEFINITION. The key input instructions (47_keys.md R180 to R183). -/

namespace Sys2Proof.Machine

/-- SkipKeyPressed(vx) (R180). -/
def execSkipKeyPressed (vx : RegIx) (s : State) : Result := finish (skipIf (keyPressed (keysNow s) (s.reg vx))) s

/-- SkipKeyNotPressed(vx) (R181). -/
def execSkipKeyNotPressed (vx : RegIx) (s : State) : Result := finish (skipIf (!keyPressed (keysNow s) (s.reg vx))) s

/-- WaitKey(vx) (R182): Stay while no key is pressed, else the lowest pressed key. -/
def execWaitKey (vx : RegIx) (s : State) : Result :=
  if keysNow s = 0 then finish .stay s else finish .increment (s.setReg vx (leastKey (keysNow s)))

end Sys2Proof.Machine
end

