-- ==== Sys2Proof/Machine/LoadStore.lean ====
section
/-! DEFINITION. The load and store instructions (41_load_store.md R120 to R126). -/

namespace Sys2Proof.Machine

/-- LoadVxByte(vx, nn) (R120). -/
def execLoadVxByte (vx : RegIx) (nn : Byte) (s : State) : Result := finish .increment (s.setReg vx nn)

/-- LoadVxVy(vx, vy) (R121). -/
def execLoadVxVy (vx vy : RegIx) (s : State) : Result := finish .increment (s.setReg vx (s.reg vy))

/-- LoadI(nnn) (R122). -/
def execLoadI (nnn : Addr) (s : State) : Result := finish .increment (s.setI (addrWord nnn))

/-- StoreRegs(vx) (R123): `I` is unchanged (R127). -/
def execStoreRegs (vx : RegIx) (s : State) : Result :=
  orRaise (writeBytes s (effAddr s 0) (s.firstRegs vx)) fun t => finish .increment t

/-- LoadRegs(vx) (R124): `I` is unchanged (R127). -/
def execLoadRegs (vx : RegIx) (s : State) : Result :=
  orRaise (readBytes s (effAddr s 0) (vx.val + 1)) fun bs => finish .increment (s.setFirstRegs bs)

/-- StoreBcd(vx) (R125): `I` is unchanged (R127). -/
def execStoreBcd (vx : RegIx) (s : State) : Result :=
  orRaise (writeBytes s (effAddr s 0) (bcdDigits (s.reg vx))) fun t => finish .increment t

/-- LoadFontVx(vx) (R126): the whole register value times 5. -/
def execLoadFontVx (vx : RegIx) (s : State) : Result := finish .increment (s.setI (byteWord (s.reg vx) * 5))

end Sys2Proof.Machine
end

