-- ==== Sys2Proof/Machine/Random.lean ====
section
/-! DEFINITION. The random instruction (45_random.md R160, R161). -/

namespace Sys2Proof.Machine

/-- RndVxByte(vx, nn) (R161): the draw AND the mask; the draw is consumed (R160). -/
def execRndVxByte (vx : RegIx) (nn : Byte) (s : State) : Result :=
  finish .increment ((s.setReg vx (drawNow s &&& nn)).consumeDraw)

end Sys2Proof.Machine
end

