-- ==== Sys2Proof/Machine/Timers.lean ====
section
/-! DEFINITION. The timer instructions and the tick (42_timers.md R130 to R133). -/

namespace Sys2Proof.Machine

/-- LoadVxDt(vx) (R130). -/
def execLoadVxDt (vx : RegIx) (s : State) : Result := finish .increment (s.setReg vx s.DT)

/-- LoadDtVx(vx) (R131). -/
def execLoadDtVx (vx : RegIx) (s : State) : Result := finish .increment (s.setDT (s.reg vx))

/-- LoadStVx(vx) (R132). -/
def execLoadStVx (vx : RegIx) (s : State) : Result := finish .increment (s.setST (s.reg vx))

/-- One count down, floored at 0 (R133). -/
def countDown (v : Byte) : Byte := if v = 0 then 0 else v - 1

/-- `TickTimers()` (R133): nothing but `DT` and `ST` changes. -/
def tickTimers (s : State) : State := (s.setDT (countDown s.DT)).setST (countDown s.ST)

end Sys2Proof.Machine
end

