-- ==== Sys2Proof/Machine/Dispatch.lean ====
section
/-! DEFINITION. One arm per instruction: its meaning (30_encoding.md R78, 40_step_and_control_flow.md R102). -/

namespace Sys2Proof.Machine

/-- The execute, outcome and self-check phases of a step (R102 to R104). -/
def exec (i : Instr) (s : State) : Host.Outcome State Fault Refusal :=
  match i with
  | .clearDisplay => Sys2Proof.Machine.execClearDisplay s
  | .ret => Sys2Proof.Machine.execReturn s
  | .jump nnn => Sys2Proof.Machine.execJump nnn s
  | .call nnn => Sys2Proof.Machine.execCall nnn s
  | .skipEqVxByte vx nn => Sys2Proof.Machine.execSkipEqVxByte vx nn s
  | .skipNeVxByte vx nn => Sys2Proof.Machine.execSkipNeVxByte vx nn s
  | .skipEqVxVy vx vy => Sys2Proof.Machine.execSkipEqVxVy vx vy s
  | .loadVxByte vx nn => Sys2Proof.Machine.execLoadVxByte vx nn s
  | .addVxByte vx nn => Sys2Proof.Machine.execAddVxByte vx nn s
  | .loadVxVy vx vy => Sys2Proof.Machine.execLoadVxVy vx vy s
  | .orVxVy vx vy => Sys2Proof.Machine.execOrVxVy vx vy s
  | .andVxVy vx vy => Sys2Proof.Machine.execAndVxVy vx vy s
  | .xorVxVy vx vy => Sys2Proof.Machine.execXorVxVy vx vy s
  | .addVxVy vx vy => Sys2Proof.Machine.execAddVxVy vx vy s
  | .subVxVy vx vy => Sys2Proof.Machine.execSubVxVy vx vy s
  | .shrVx vx vy => Sys2Proof.Machine.execShrVx vx vy s
  | .subnVxVy vx vy => Sys2Proof.Machine.execSubnVxVy vx vy s
  | .shlVx vx vy => Sys2Proof.Machine.execShlVx vx vy s
  | .skipNeVxVy vx vy => Sys2Proof.Machine.execSkipNeVxVy vx vy s
  | .loadI nnn => Sys2Proof.Machine.execLoadI nnn s
  | .jumpV0 nnn => Sys2Proof.Machine.execJumpV0 nnn s
  | .rndVxByte vx nn => Sys2Proof.Machine.execRndVxByte vx nn s
  | .displaySprite vx vy n => Sys2Proof.Machine.execDisplaySprite vx vy n s
  | .skipKeyPressed vx => Sys2Proof.Machine.execSkipKeyPressed vx s
  | .skipKeyNotPressed vx => Sys2Proof.Machine.execSkipKeyNotPressed vx s
  | .loadVxDt vx => Sys2Proof.Machine.execLoadVxDt vx s
  | .waitKey vx => Sys2Proof.Machine.execWaitKey vx s
  | .loadDtVx vx => Sys2Proof.Machine.execLoadDtVx vx s
  | .loadStVx vx => Sys2Proof.Machine.execLoadStVx vx s
  | .addIVx vx => Sys2Proof.Machine.execAddIVx vx s
  | .loadFontVx vx => Sys2Proof.Machine.execLoadFontVx vx s
  | .storeBcd vx => Sys2Proof.Machine.execStoreBcd vx s
  | .storeRegs vx => Sys2Proof.Machine.execStoreRegs vx s
  | .loadRegs vx => Sys2Proof.Machine.execLoadRegs vx s

end Sys2Proof.Machine
end

