-- ==== Sys2Proof/Machine/Step.lean ====
section
/-! DEFINITION. One `Step` (40_step_and_control_flow.md R100) with the arguments that State holds, and the placing of an
instruction where the next step fetches it. -/

namespace Sys2Proof.Machine

/-- `Step`: fetch and decode (R101), then `exec`'s phases (R102 to R104). A halted engine has no step (10_state.md R35).
A step that goes on opens the key set of the next call (log 1). -/
def step (s : State) : Host.Outcome State Fault Refusal :=
  match s.halted with
  | some k => .refused (.engineHalted k)
  | none =>
    orRaise (fetch s) fun w =>
      match decodeWord w with
      | none => raise .unrecognizedOpcode
      | some i =>
        match exec i s with
        | .next t => .next t.nextCall
        | .fault k => .fault k
        | .refused r => .refused r

/-- `s` with the instruction whose bits are `w` stored big-endian at `pc` and `pc + 1`, where the next step fetches. -/
def State.withFetchWord (s : State) (nbits w : Nat) : State := placeAtPc s (BitVec.ofNat 16 (w % 2 ^ nbits))

end Sys2Proof.Machine
end

