-- ==== Sys2Proof/Machine/Operations.lean ====
section
/-! DEFINITION. The operations the host can apply to the CORE (60_exceptions.md R215) and any interleaving of them
(42_timers.md R134). -/

namespace Sys2Proof.Machine

/-- The host's operations (R215). The text that Dump and Disassemble print is not modelled (log 24). -/
inductive Operation where
  | reset
  | load (addr : Nat) (bytes : List Byte)
  | step (keys : KeyMask) (rnd : Byte)
  | tickTimers
  | view
  | dump
  | disassemble (n : Nat)
deriving DecidableEq, Repr

/-- `Reset()` of this machine (70_reset_and_hazards.md R230, R231): the parameters stay, and so do the model's own input
fields, which are the host's and not the CORE's (log 22). -/
def resetOf (s : State) : State :=
  { State.resetWith s.cfg with keys := s.keys, rnd := s.rnd, steps := s.steps, drawn := s.drawn }

/-- `Load(addr, bytes)` (20_memory.md R55): the whole range is checked before any byte is copied. -/
def load (s : State) (addr : Nat) (bytes : List Byte) : Result :=
  if addr + bytes.length > memSize then raise .memoryBoundsFault
  else .next (s.setMem (s.mem.writeAll s.cfg.glyphs addr bytes))

/-- Where a program is loaded and execution begins (60_exceptions.md R216, 10_state.md R24). -/
def programBase : Nat := 0x200

/-- Program input (R216): `Load(0x200, bytes)`. -/
def loadProgram (s : State) (bytes : List Byte) : Result := load s programBase bytes

/-- `View()` (60_exceptions.md R217): every pixel of the buffer, by linear index. -/
def viewPixels (s : State) : List Bool := (List.range displaySize).map (pixel s.fb)

/-- The effect of one host operation on an engine that is not halted. -/
def Operation.effect (op : Operation) (s : State) : Result :=
  match op with
  | .reset => .next (resetOf s)
  | .load addr bytes => Sys2Proof.Machine.load s addr bytes
  | .step keys rnd => Sys2Proof.Machine.step (s.withArguments keys rnd)
  | .tickTimers => .next (Sys2Proof.Machine.tickTimers s)
  | .view => .next s
  | .dump => .next s
  | .disassemble _ => .next s

/-- One host operation: a halted engine accepts Reset and nothing else (10_state.md R35, 60_exceptions.md R210;
log 14). -/
def Operation.apply (op : Operation) (s : State) : Result :=
  match s.halted, op with
  | none, op => op.effect s
  | some _, .reset => .next (resetOf s)
  | some k, _ => .refused (.engineHalted k)

/-- Whether the coming step ends in the outcome Stay, which the host can tell from the others (R113, 92 D30;
log 27): it executes a WaitKey with no key pressed. -/
def stepStays (s : State) : Bool :=
  match s.halted, fetch s with
  | none, .ok w =>
    match decodeWord w with
    | some (.waitKey _) => keysNow s == 0
    | _ => false
  | _, _ => false

/-- A sequence of host operations. After a fatal condition the engine is halted, and only a Reset leads on; a sequence
that ends in a halted engine answers the fault, with no state (60_exceptions.md R209). -/
def Operation.run : List Operation → State → Result
  | [], s =>
    match s.halted with
    | none => .next s
    | some k => raise k
  | op :: rest, s =>
    match op.apply s with
    | .next t => Operation.run rest t
    | .fault k => Operation.run rest (s.haltWith k)
    | .refused r => .refused r

end Sys2Proof.Machine
end

