-- ==== Sys2Proof/Safety.lean ====
section
/-! DEFINITION. What counts as a safe state and a safe run: the form every operation keeps, and runs that meet no fatal
condition. -/

namespace Sys2Proof.Machine

/-- A stack that its capacity can hold (10_state.md R30). -/
def stackFits (depth : Option Nat) (n : Nat) : Prop :=
  match depth with
  | none => True
  | some d => n ≤ d

/-- The form of a state that every operation keeps: memory canonical, the engine not halted, `pc` at most 0x10FE and every
return address at most 4096 (10_state.md R26), the stack within its capacity (R30). -/
structure State.Inv (s : State) : Prop where
  memory  : s.mem.wf s.cfg.glyphs = true
  running : s.halted = none
  counter : s.pc.toNat ≤ 0x10FE
  returns : ∀ a ∈ s.stack, a.toNat ≤ 4096
  depth   : stackFits s.cfg.stackDepth s.stack.length

/-- The step from `s` goes on. -/
def StepsOn (s : State) : Prop := ∃ t, step s = .next t

/-- A sequence of host operations that meets no fatal condition and no refusal. -/
def SafeCalls : List Operation → State → Prop
  | [], _ => True
  | op :: rest, s => ∃ t, op.apply s = .next t ∧ SafeCalls rest t

end Sys2Proof.Machine
end

