-- ==== Sys2Proof/Certificates/Slice0/Obligations.lean ====
section
/-! DEFINITION. The statements about the model, and the few notions they share. Each docstring names the rules of spec/
that it formalises, and the log entries (notes/assumptions) on which a clause rests. -/

namespace Sys2Proof.Claims

open Sys2Proof.Machine

/-- The same result with the next state changed by `f`. -/
def mapNext (f : State → State) (r : Result) : Result :=
  match r with
  | .next t => .next (f t)
  | .fault k => .fault k
  | .refused q => .refused q

/-- The registers an instruction may write: its destination, and `x[15]` for the six flag writers
(10_state.md R22). -/
def mayWriteReg (i : Instr) (r : RegIx) : Bool :=
  match i with
  | .clearDisplay | .ret | .jump _ | .call _ | .skipEqVxByte _ _ | .skipNeVxByte _ _ | .skipEqVxVy _ _
  | .skipNeVxVy _ _ | .loadI _ | .jumpV0 _ | .skipKeyPressed _ | .skipKeyNotPressed _ | .loadDtVx _ | .loadStVx _
  | .addIVx _ | .loadFontVx _ | .storeBcd _ | .storeRegs _ => false
  | .loadVxByte vx _ | .addVxByte vx _ | .loadVxVy vx _ | .orVxVy vx _ | .andVxVy vx _ | .xorVxVy vx _
  | .rndVxByte vx _ | .loadVxDt vx | .waitKey vx => r == vx
  | .addVxVy vx _ | .subVxVy vx _ | .shrVx vx _ | .subnVxVy vx _ | .shlVx vx _ => r == vx || r == 15
  | .displaySprite _ _ _ => r == 15
  | .loadRegs vx => decide (r ≤ vx)

/-- The addresses an instruction stores to, by the addressing mode of its meaning (41_load_store.md R123, R125, R127);
no other instruction stores. -/
def storedTo (i : Instr) (s : State) : List Nat :=
  match i with
  | .storeRegs vx => (List.range (vx.val + 1)).map (effAddr s)
  | .storeBcd _ => (List.range 3).map (effAddr s)
  | _ => []

/-- The instructions that can end in a fatal condition of their own (60_exceptions.md R200). -/
def canFault (i : Instr) : Bool :=
  match i with
  | .ret | .jump _ | .call _ | .jumpV0 _ | .storeRegs _ | .loadRegs _ | .storeBcd _ | .displaySprite _ _ _ => true
  | _ => false

/-- What `pc` is after each instruction goes on: the outcome that 40_step_and_control_flow.md R103 gives it, with the
targets of Return, Call, Jump and JumpV0 from R105 to R108; that the sum of JumpV0 is not reduced is the spec's decision
D20 (log 17). -/
def pcAfter (i : Instr) (s : State) (pc : Word) : Prop :=
  match i with
  | .ret => s.stack.head? = some pc
  | .jump nnn | .call nnn => pc.toNat = nnn.toNat
  | .jumpV0 nnn => pc.toNat = nnn.toNat + s.x[0].toNat
  | .skipEqVxByte _ _ | .skipNeVxByte _ _ | .skipEqVxVy _ _ | .skipNeVxVy _ _ | .skipKeyPressed _
  | .skipKeyNotPressed _ => pc = s.pc + 2 ∨ pc = s.pc + 4
  | .waitKey _ => pc = s.pc ∨ pc = s.pc + 2
  | _ => pc = s.pc + 2

/-- The flag writers whose flag survives in `x[15]`: those with another destination, and the sprite draw
(10_state.md R22, R23, R38). -/
def leavesFlag (i : Instr) : Bool :=
  match i with
  | .addVxVy vx _ | .subVxVy vx _ | .shrVx vx _ | .subnVxVy vx _ | .shlVx vx _ => vx != 15
  | .displaySprite _ _ _ => true
  | _ => false

/-- The bit of the sprite at `I` for row `r` and column `b`, most significant bit first (46_display.md R167). -/
def spriteBit (s : State) (r b : Nat) : Bool := (s.mem.read s.cfg.glyphs (effAddr s r)).getLsbD (7 - b)

/-- The linear position of row `r` and column `b` of a sprite at `(x[vx], x[vy])` (46_display.md R166, R168). -/
def spritePos (s : State) (vx vy : RegIx) (r b : Nat) : Nat := ((s.x[vy].toNat + r) * 64 + s.x[vx].toNat + b) % 2048

/-- A sprite of `n` rows that is in memory and whose row origins are on the display (46_display.md R169, R171). -/
def SpriteFits (s : State) (vx vy : RegIx) (n : Nat) : Prop :=
  n = 0 ∨ (effAddr s n ≤ 4096 ∧ s.x[vx].toNat < 64 ∧ s.x[vy].toNat + n ≤ 32)

end Sys2Proof.Claims

open Sys2Proof Sys2Proof.Machine Sys2Proof.Claims

/-! ## Encoding -/

/-- The four decodings and the one non-decoding that the source prints (30_encoding.md R76). -/
def Obligations.SourceWordsDecodeAsPrinted : Prop :=
  decodeWord 0x00E0 = some .clearDisplay ∧ decodeWord 0x1123 = some (.jump 0x123) ∧
  decodeWord 0x6ACC = some (.loadVxByte 0xA 0xCC) ∧ decodeWord 0xDABC = some (.displaySprite 0xA 0xB 0xC) ∧
  decodeWord 0xF00D = none

/-- The round trip of R84, for every well-formed instruction and every operand value. The patterns are those of R78, of
which 30 are general knowledge in the spec (log 6). -/
def Obligations.DecodeOfEncodedInstructionGivesItBack : Prop :=
  ∀ (i : Instr) (rest : List Byte), i.wellFormed = true → decode (encodeBytes i ++ rest) = .ok (i, rest)

/-- The other direction: a word that decodes is the encoding of what it decodes to, ignored fields included
(R73, R78; log 6). -/
def Obligations.EncodeOfDecodedWordGivesItBack : Prop :=
  ∀ (w : Word) (i : Instr), decodeWord w = some i → i.wellFormed = true ∧ encode i = w

/-- The unrecognised words, by top nibble (R79; the boundaries rest on the masks of log 6). -/
def Obligations.UnrecognizedWordsAreExactlyThose : Prop :=
  ∀ w : Word, decodeWord w = none ↔
    (w.toNat / 4096 = 0 ∧ w.toNat ≠ 0x00E0 ∧ w.toNat ≠ 0x00EE) ∨
    (w.toNat / 4096 = 5 ∧ w.toNat % 16 ≠ 0) ∨
    (w.toNat / 4096 = 8 ∧ w.toNat % 16 ∈ [8, 9, 0xA, 0xB, 0xC, 0xD, 0xF]) ∨
    (w.toNat / 4096 = 9 ∧ w.toNat % 16 ≠ 0) ∨
    (w.toNat / 4096 = 0xE ∧ w.toNat % 256 ∉ [0x9E, 0xA1]) ∨
    (w.toNat / 4096 = 0xF ∧ w.toNat % 256 ∉ [0x07, 0x0A, 0x15, 0x18, 0x1E, 0x29, 0x33, 0x55, 0x65])

/-- No word matches two rows of the table, so the order of the rows does not matter (R75; log 6). -/
def Obligations.NoWordMatchesTwoRows : Prop :=
  opcodeTable.Pairwise fun r q => ∀ w : Word, ¬ (r.matchesWord w = true ∧ q.matchesWord w = true)

/-! ## Memory -/

/-- The two byte accesses: bounds-checked, a read gives the last write, a write changes one byte and nothing else
(20_memory.md R53, R54). -/
def Obligations.ByteAccessIsBoundsCheckedAndExact : Prop :=
  ∀ (s : State) (a : Nat) (v : Byte),
    (a < 4096 →
      (∃ w, readByte s a = .ok w) ∧
      ∃ t, writeByte s a v = .ok t ∧ readByte t a = .ok v ∧ (∀ b, b ≠ a → readByte t b = readByte s b) ∧
        t = { s with mem := t.mem }) ∧
    (4096 ≤ a → readByte s a = .error .memoryBoundsFault ∧ writeByte s a v = .error .memoryBoundsFault)

/-- The host's Load: the whole range or a fault (20_memory.md R55; that it is legal at any time is the spec's decision
D26, log 22). -/
def Obligations.LoadCopiesWholeRangeOrFaults : Prop :=
  ∀ (s : State) (addr : Nat) (bytes : List Byte), s.halted = none →
    (addr + bytes.length ≤ 4096 →
      ∃ t, (Operation.load addr bytes).apply s = .next t ∧
        (∀ k (h : k < bytes.length), readByte t (addr + k) = .ok bytes[k]) ∧
        (∀ a, a < addr ∨ addr + bytes.length ≤ a → readByte t a = readByte s a) ∧
        t = { s with mem := t.mem }) ∧
    (4096 < addr + bytes.length → (Operation.load addr bytes).apply s = .fault .memoryBoundsFault)

/-- The fetch: two bytes, the one at the lower address the more significant; it faults iff `pc >= 4095`
(20_memory.md R56, R57; that `pc + 1` does not wrap is the spec's decision D20, log 17). -/
def Obligations.FetchIsBigEndianOrFaults : Prop :=
  ∀ s : State,
    (s.pc.toNat ≤ 4094 → ∃ hi lo, readByte s s.pc.toNat = .ok hi ∧ readByte s (s.pc.toNat + 1) = .ok lo ∧
      fetch s = .ok (BitVec.ofNat 16 (hi.toNat * 256 + lo.toNat))) ∧
    (4095 ≤ s.pc.toNat → fetch s = .error .memoryBoundsFault)

/-- A block store over the next instruction is what the next fetch reads (20_memory.md R64). -/
def Obligations.StoreIsSeenByTheNextFetch : Prop :=
  ∀ (vx j k : RegIx) (s : State), effAddr s vx.val < 4096 → j.val + 1 = k.val → k ≤ vx →
    effAddr s j.val = s.pc.toNat + 2 →
    ∃ t, exec (.storeRegs vx) s = .next t ∧ fetch t = .ok (BitVec.ofNat 16 (s.x[j].toNat * 256 + s.x[k].toNat))

/-! ## The step -/

/-- A step runs the instruction that its two bytes decode to, and then opens the key set of the next call
(40_step_and_control_flow.md R100 to R102; the key set is log 1). -/
def Obligations.StepRunsTheDecodedInstruction : Prop :=
  ∀ (s : State) (hi lo : Byte) (i : Instr), s.halted = none →
    readByte s s.pc.toNat = .ok hi → readByte s (s.pc.toNat + 1) = .ok lo → decode [hi, lo] = .ok (i, []) →
    step s = match exec i s with
      | .next t => .next { t with keys := none, steps := t.steps + 1 }
      | .fault k => .fault k
      | .refused r => .refused r

/-- The two fatal conditions before execution (40_step_and_control_flow.md R101, 60_exceptions.md R201, R204). -/
def Obligations.StepIsFatalWithoutAnInstruction : Prop :=
  ∀ s : State, s.halted = none →
    (4095 ≤ s.pc.toNat → step s = .fault .memoryBoundsFault) ∧
    (∀ hi lo : Byte, readByte s s.pc.toNat = .ok hi → readByte s (s.pc.toNat + 1) = .ok lo →
      decodeWord (wordOfBytes hi lo) = none → step s = .fault .unrecognizedOpcode)

/-- The host's `Step(keys, rnd)` is the model's step with these arguments (40_step_and_control_flow.md R100; log 1,
log 2). -/
def Obligations.HostStepIsStepWithItsArguments : Prop :=
  ∀ (s : State) (k : KeyMask) (r : Byte), s.halted = none →
    (Operation.step k r).apply s = step { s with keys := some k, rnd := some r } ∧
    keysNow { s with keys := some k, rnd := some r } = k ∧ drawNow { s with keys := some k, rnd := some r } = r

/-- A word placed by `withFetchWord` is what the next step fetches, and only memory changes (the model's own way to place
an instruction, log 16). -/
def Obligations.PlacedWordIsFetched : Prop :=
  ∀ (s : State) (w : Nat), s.pc.toNat ≤ 4094 →
    fetch (s.withFetchWord 16 w) = .ok (BitVec.ofNat 16 w) ∧
    s.withFetchWord 16 w = { s with mem := (s.withFetchWord 16 w).mem }

/-! ## Control flow -/

/-- Jump and JumpV0, with the self-check of R104 (40_step_and_control_flow.md R107, R108; that the sum is not reduced is
the spec's decision D20, log 17; the moment of the self-check is D6, log 9). -/
def Obligations.JumpsGoToTheirTargets : Prop :=
  ∀ (nnn : Addr) (s : State),
    ((nnn.toNat ≠ s.pc.toNat ∨ s.cfg.stuckPcFatal = false) →
      exec (.jump nnn) s = .next { s with pc := BitVec.ofNat 16 nnn.toNat }) ∧
    ((nnn.toNat = s.pc.toNat ∧ s.cfg.stuckPcFatal = true) → exec (.jump nnn) s = .fault .stuckProgramCounter) ∧
    ((nnn.toNat + s.x[0].toNat ≠ s.pc.toNat ∨ s.cfg.stuckPcFatal = false) →
      exec (.jumpV0 nnn) s = .next { s with pc := BitVec.ofNat 16 (nnn.toNat + s.x[0].toNat) }) ∧
    ((nnn.toNat + s.x[0].toNat = s.pc.toNat ∧ s.cfg.stuckPcFatal = true) →
      exec (.jumpV0 nnn) s = .fault .stuckProgramCounter)

/-- Call (40_step_and_control_flow.md R106, 10_state.md R30; the capacity is the spec's parameter D14, log 3). -/
def Obligations.CallPushesTheReturnAddress : Prop :=
  ∀ (nnn : Addr) (s : State),
    (((∀ d, s.cfg.stackDepth = some d → s.stack.length < d) ∧
        (nnn.toNat ≠ s.pc.toNat ∨ s.cfg.stuckPcFatal = false)) →
      exec (.call nnn) s = .next { s with stack := (s.pc + 2) :: s.stack, pc := BitVec.ofNat 16 nnn.toNat }) ∧
    (((∀ d, s.cfg.stackDepth = some d → s.stack.length < d) ∧ nnn.toNat = s.pc.toNat ∧ s.cfg.stuckPcFatal = true) →
      exec (.call nnn) s = .fault .stuckProgramCounter) ∧
    (∀ d, s.cfg.stackDepth = some d → d ≤ s.stack.length → exec (.call nnn) s = .fault .stackOverflow)

/-- Return (40_step_and_control_flow.md R105, 10_state.md R31, 60_exceptions.md R202). -/
def Obligations.ReturnPopsTheReturnAddress : Prop :=
  ∀ s : State,
    (∀ a rest, s.stack = a :: rest →
      ((a ≠ s.pc ∨ s.cfg.stuckPcFatal = false) → exec .ret s = .next { s with stack := rest, pc := a }) ∧
      ((a = s.pc ∧ s.cfg.stuckPcFatal = true) → exec .ret s = .fault .stuckProgramCounter)) ∧
    (s.stack = [] → exec .ret s = .fault .stackUnderflow)

/-- "Call(addr) immediately followed by Return leaves PC equal to the instruction following the original Call, and net
stack depth unchanged" (40_step_and_control_flow.md R106), and changes nothing else. -/
def Obligations.CallThenReturnComesBack : Prop :=
  ∀ (nnn : Addr) (s : State), (∀ d, s.cfg.stackDepth = some d → s.stack.length < d) →
    (s.cfg.stuckPcFatal = false ∨ (nnn.toNat ≠ s.pc.toNat ∧ nnn.toNat ≠ (s.pc + 2).toNat)) →
    ∃ t, exec (.call nnn) s = .next t ∧ exec .ret t = .next { s with pc := s.pc + 2 }

/-- The four register skips (40_step_and_control_flow.md R109 to R112). -/
def Obligations.RegisterSkipsSkipOnTheirCondition : Prop :=
  ∀ (vx vy : RegIx) (nn : Byte) (s : State),
    exec (.skipEqVxByte vx nn) s = .next { s with pc := s.pc + if s.x[vx] = nn then 4 else 2 } ∧
    exec (.skipNeVxByte vx nn) s = .next { s with pc := s.pc + if s.x[vx] = nn then 2 else 4 } ∧
    exec (.skipEqVxVy vx vy) s = .next { s with pc := s.pc + if s.x[vx] = s.x[vy] then 4 else 2 } ∧
    exec (.skipNeVxVy vx vy) s = .next { s with pc := s.pc + if s.x[vx] = s.x[vy] then 2 else 4 }

/-! ## Load and store -/

/-- LoadVxByte (41_load_store.md R120), `x[15]` included, with its encoding `6xnn`, which the source states. -/
def Obligations.LoadImmediateWritesTheRegister : Prop :=
  ∀ (vx : RegIx) (nn : Byte) (s : State),
    decodeWord (BitVec.ofNat 16 (0x6000 + 0x100 * vx.val + nn.toNat)) = some (.loadVxByte vx nn) ∧
    exec (.loadVxByte vx nn) s = .next { s with x := s.x.set vx nn, pc := s.pc + 2 }

/-- LoadVxVy (41_load_store.md R121). -/
def Obligations.LoadRegisterCopiesTheRegister : Prop :=
  ∀ (vx vy : RegIx) (s : State),
    exec (.loadVxVy vx vy) s = .next { s with x := s.x.set vx s.x[vy], pc := s.pc + 2 }

/-- LoadI and LoadFontVx (41_load_store.md R122, R126). -/
def Obligations.IndexLoadsSetTheIndex : Prop :=
  ∀ (nnn : Addr) (vx : RegIx) (s : State),
    exec (.loadI nnn) s = .next { s with I := BitVec.ofNat 16 nnn.toNat, pc := s.pc + 2 } ∧
    exec (.loadFontVx vx) s = .next { s with I := BitVec.ofNat 16 (s.x[vx].toNat * 5), pc := s.pc + 2 }

/-- StoreRegs: registers 0 to vx to memory from `I`, every other byte as before (41_load_store.md R123; that `I` is
unchanged is the spec's decision D10, log 12). -/
def Obligations.StoreRegsStoresTheFirstRegisters : Prop :=
  ∀ (vx : RegIx) (s : State), effAddr s vx.val < 4096 →
    ∃ t, exec (.storeRegs vx) s = .next t ∧ t = { s with mem := t.mem, pc := s.pc + 2 } ∧
      (∀ k : RegIx, k ≤ vx → readByte t (effAddr s k.val) = .ok s.x[k]) ∧
      (∀ a, a < effAddr s 0 ∨ effAddr s vx.val < a → readByte t a = readByte s a)

/-- LoadRegs: registers 0 to vx from memory, the others as before (41_load_store.md R124; `I` unchanged is D10,
log 12). -/
def Obligations.LoadRegsLoadsTheFirstRegisters : Prop :=
  ∀ (vx : RegIx) (s : State), effAddr s vx.val < 4096 →
    ∃ t, exec (.loadRegs vx) s = .next t ∧ t = { s with x := t.x, pc := s.pc + 2 } ∧
      (∀ k : RegIx, k ≤ vx → readByte s (effAddr s k.val) = .ok t.x[k]) ∧
      (∀ k : RegIx, vx < k → t.x[k] = s.x[k])

/-- StoreBcd: the three decimal digits, every other byte as before (41_load_store.md R125; `I` unchanged is D10,
log 12). -/
def Obligations.StoreBcdStoresTheDigits : Prop :=
  ∀ (vx : RegIx) (s : State), effAddr s 2 < 4096 →
    ∃ t h d o, exec (.storeBcd vx) s = .next t ∧ t = { s with mem := t.mem, pc := s.pc + 2 } ∧
      readByte t (effAddr s 0) = .ok h ∧ readByte t (effAddr s 1) = .ok d ∧ readByte t (effAddr s 2) = .ok o ∧
      s.x[vx].toNat = 100 * h.toNat + 10 * d.toNat + o.toNat ∧ h.toNat ≤ 2 ∧ d.toNat ≤ 9 ∧ o.toNat ≤ 9 ∧
      (∀ a, a < effAddr s 0 ∨ effAddr s 2 < a → readByte t a = readByte s a)

/-- When the block transfers and StoreBcd fault (41_load_store.md R123, R124, R125, 60_exceptions.md R204). -/
def Obligations.TransfersFaultExactlyOutsideMemory : Prop :=
  ∀ (vx : RegIx) (s : State),
    (exec (.storeRegs vx) s = .fault .memoryBoundsFault ↔ 4096 ≤ s.I.toNat + vx.val) ∧
    (exec (.loadRegs vx) s = .fault .memoryBoundsFault ↔ 4096 ≤ s.I.toNat + vx.val) ∧
    (exec (.storeBcd vx) s = .fault .memoryBoundsFault ↔ 4096 ≤ s.I.toNat + 2)

/-! ## Timers -/

/-- The three timer moves (42_timers.md R130, R131, R132). -/
def Obligations.TimerMovesCopyTheByte : Prop :=
  ∀ (vx : RegIx) (s : State),
    exec (.loadVxDt vx) s = .next { s with x := s.x.set vx s.DT, pc := s.pc + 2 } ∧
    exec (.loadDtVx vx) s = .next { s with DT := s.x[vx], pc := s.pc + 2 } ∧
    exec (.loadStVx vx) s = .next { s with ST := s.x[vx], pc := s.pc + 2 }

/-- TickTimers: each timer down by 1, floored at 0, and nothing else (42_timers.md R133). -/
def Obligations.TickCountsEachTimerDown : Prop :=
  ∀ s : State, s.halted = none →
    Operation.tickTimers.apply s =
      .next { s with
        DT := BitVec.ofNat 8 (if s.DT.toNat > 0 then s.DT.toNat - 1 else 0)
        ST := BitVec.ofNat 8 (if s.ST.toNat > 0 then s.ST.toNat - 1 else 0) }

/-- A tick before or after an instruction that moves no timer makes no difference (42_timers.md R134). -/
def Obligations.TicksCommuteWithOtherInstructions : Prop :=
  ∀ (i : Instr) (s : State), (∀ vx, i ≠ .loadVxDt vx ∧ i ≠ .loadDtVx vx ∧ i ≠ .loadStVx vx) →
    exec i (tickTimers s) = mapNext tickTimers (exec i s)

/-! ## Arithmetic and bit operations -/

/-- AddVxByte: wraps modulo 256, no flag (43_arithmetic.md R140). -/
def Obligations.AddImmediateWrapsWithoutFlag : Prop :=
  ∀ (vx : RegIx) (nn : Byte) (s : State),
    exec (.addVxByte vx nn) s =
      .next { s with x := s.x.set vx (BitVec.ofNat 8 ((s.x[vx].toNat + nn.toNat) % 256)), pc := s.pc + 2 }

/-- AddVxVy: carry to `VF`, then the wrapped sum to `x[vx]` (43_arithmetic.md R141). That the operands are read before
the flag is written, seen with `vx` or `vy` 15, is the spec's decision D5 (10_state.md R23, log 8). -/
def Obligations.AddRegistersCarriesThenSums : Prop :=
  ∀ (vx vy : RegIx) (s : State),
    exec (.addVxVy vx vy) s =
      .next { s with
        x := (s.x.set 15 (if s.x[vy].toNat > 255 - s.x[vx].toNat then 1 else 0)).set vx
          (BitVec.ofNat 8 ((s.x[vx].toNat + s.x[vy].toNat) % 256))
        pc := s.pc + 2 }

/-- SubVxVy and SubnVxVy: the strict comparison to `VF`, then the wrapped difference to `x[vx]` (43_arithmetic.md R142,
R143; the flag at equality is 90_conflicts.md C3, log 18; operand latching is D5, log 8). -/
def Obligations.SubtractionsCompareThenSubtract : Prop :=
  ∀ (vx vy : RegIx) (s : State),
    exec (.subVxVy vx vy) s =
      .next { s with
        x := (s.x.set 15 (if s.x[vx].toNat > s.x[vy].toNat then 1 else 0)).set vx
          (BitVec.ofNat 8 ((s.x[vx].toNat + 256 - s.x[vy].toNat) % 256))
        pc := s.pc + 2 } ∧
    exec (.subnVxVy vx vy) s =
      .next { s with
        x := (s.x.set 15 (if s.x[vy].toNat > s.x[vx].toNat then 1 else 0)).set vx
          (BitVec.ofNat 8 ((s.x[vy].toNat + 256 - s.x[vx].toNat) % 256))
        pc := s.pc + 2 }

/-- AddIVx: 16 bits, no flag (43_arithmetic.md R144); the wrap at 65536 is the spec's decision D9 (log 11). -/
def Obligations.AddToIndexWrapsAtSixteenBits : Prop :=
  ∀ (vx : RegIx) (s : State),
    exec (.addIVx vx) s =
      .next { s with I := BitVec.ofNat 16 ((s.I.toNat + s.x[vx].toNat) % 65536), pc := s.pc + 2 }

/-- The three logic operations, bit by bit, with no flag (44_bitops.md R150, R151, R152; that `VF` is kept is derived in
the spec, log 23). -/
def Obligations.LogicOperationsCombineBitByBit : Prop :=
  ∀ (vx vy : RegIx) (s : State), ∃ o a e : Byte,
    exec (.orVxVy vx vy) s = .next { s with x := s.x.set vx o, pc := s.pc + 2 } ∧
    exec (.andVxVy vx vy) s = .next { s with x := s.x.set vx a, pc := s.pc + 2 } ∧
    exec (.xorVxVy vx vy) s = .next { s with x := s.x.set vx e, pc := s.pc + 2 } ∧
    ∀ k < 8, o.getLsbD k = (s.x[vx].getLsbD k || s.x[vy].getLsbD k) ∧
      a.getLsbD k = (s.x[vx].getLsbD k && s.x[vy].getLsbD k) ∧
      e.getLsbD k = (s.x[vx].getLsbD k != s.x[vy].getLsbD k)

/-- ShrVx: the low bit to `VF`, then half the operand to `x[vx]`, whatever `vy` is (44_bitops.md R153; that the operand is
`x[vx]` is the spec's decision D3, log 7; latching is D5, log 8). -/
def Obligations.ShiftRightMovesTheLowBitToTheFlag : Prop :=
  ∀ (vx vy : RegIx) (s : State),
    exec (.shrVx vx vy) s =
      .next { s with
        x := (s.x.set 15 (BitVec.ofNat 8 (s.x[vx].toNat % 2))).set vx (BitVec.ofNat 8 (s.x[vx].toNat / 2))
        pc := s.pc + 2 }

/-- ShlVx under both values of `SHIFT_FLAG`, whatever `vy` is (44_bitops.md R154; operand D3, log 7; flag encoding D4,
log 3; latching D5, log 8). -/
def Obligations.ShiftLeftMovesTheHighBitToTheFlag : Prop :=
  ∀ (vx vy : RegIx) (s : State),
    (s.cfg.shiftFlag = .normalized →
      exec (.shlVx vx vy) s =
        .next { s with
          x := (s.x.set 15 (BitVec.ofNat 8 (s.x[vx].toNat / 128))).set vx
            (BitVec.ofNat 8 (s.x[vx].toNat * 2 % 256))
          pc := s.pc + 2 }) ∧
    (s.cfg.shiftFlag = .raw →
      exec (.shlVx vx vy) s =
        .next { s with
          x := (s.x.set 15 (BitVec.ofNat 8 (s.x[vx].toNat / 128 * 128))).set vx
            (BitVec.ofNat 8 (s.x[vx].toNat * 2 % 256))
          pc := s.pc + 2 })

/-! ## Random -/

/-- RndVxByte: the draw AND the mask, for every draw, supplied or open (45_random.md R161); the draw is consumed (R160,
the spec's decision D15, log 2). -/
def Obligations.RndMasksTheDraw : Prop :=
  ∀ (vx : RegIx) (nn : Byte) (s : State),
    (∀ r, s.rnd = some r → drawNow s = r) ∧
    exec (.rndVxByte vx nn) s =
      .next { s with x := s.x.set vx (drawNow s &&& nn), rnd := none, drawn := s.drawn + 1, pc := s.pc + 2 }

/-- No other instruction reads or consumes a draw (45_random.md R160; log 2). -/
def Obligations.DrawsAreReadOnlyByRnd : Prop :=
  ∀ (i : Instr) (s : State) (r : Option Byte) (d : Nat), (∀ vx nn, i ≠ .rndVxByte vx nn) →
    exec i { s with rnd := r, drawn := d } = mapNext (fun t => { t with rnd := r, drawn := d }) (exec i s)

/-! ## Display -/

/-- ClearDisplay: every pixel 0 and nothing else changed (46_display.md R170), with its encoding `00E0`, which the source
states. -/
def Obligations.ClearDisplayZeroesEveryPixel : Prop :=
  decodeWord 0x00E0 = some .clearDisplay ∧ ∀ s : State, ∃ t, exec .clearDisplay s = .next t ∧ t = { s with fb := t.fb, pc := s.pc + 2 } ∧
    ∀ k < 2048, pixel t.fb k = false

/-- DisplaySprite: each pixel under the sprite is XORed with its bit, every other pixel is as before, and `VF` is 1 iff
some pixel went from 1 to 0 (46_display.md R166, R167, R168, R171). A sprite of no rows is included (D29, log 20); that
`I` is unchanged is the spec's decision D10 (log 12). -/
def Obligations.DisplaySpriteXorsAndReportsCollision : Prop :=
  ∀ (vx vy : RegIx) (n : Nat) (s : State), SpriteFits s vx vy n →
    ∃ t, exec (.displaySprite vx vy n) s = .next t ∧
      t = { s with
        fb := t.fb
        x := s.x.set 15 (if (List.range n).any fun r => (List.range 8).any fun b =>
          spriteBit s r b && pixel s.fb (spritePos s vx vy r b) then 1 else 0)
        pc := s.pc + 2 } ∧
      (∀ r < n, ∀ b < 8, pixel t.fb (spritePos s vx vy r b) =
        (pixel s.fb (spritePos s vx vy r b) != spriteBit s r b)) ∧
      (∀ k < 2048, (∀ r < n, ∀ b < 8, spritePos s vx vy r b ≠ k) → pixel t.fb k = pixel s.fb k)

/-- The two faults of DisplaySprite, the memory fault first (46_display.md R171; the range fault is the spec's decision
D7, log 10, and the order D21, log 21). -/
def Obligations.DisplaySpriteFaultsInOrder : Prop :=
  ∀ (vx vy : RegIx) (n : Nat) (s : State), 1 ≤ n →
    (4096 ≤ s.I.toNat + n - 1 → exec (.displaySprite vx vy n) s = .fault .memoryBoundsFault) ∧
    (s.I.toNat + n - 1 < 4096 → (64 ≤ s.x[vx].toNat ∨ 32 < s.x[vy].toNat + n) →
      exec (.displaySprite vx vy n) s = .fault .displayRangeFault)

/-- "Drawing the same non-zero sprite twice at identical coordinates on a cleared buffer: first draw reports NoCollision
and sets the expected pixels; second draw reports Collision and restores all those pixels to false"
(46_display.md R171). The first draw clears `VF`, so a coordinate in `VF` is identical only where it was 0; each draw with
another value there is covered by `DisplaySpriteXorsAndReportsCollision`. That the second draw reads the same sprite rests
on `I` unchanged, the spec's decision D10 (log 12). -/
def Obligations.DrawingTwiceRestoresTheDisplay : Prop :=
  ∀ (vx vy : RegIx) (n : Nat) (s : State), SpriteFits s vx vy n → (∀ k < 2048, pixel s.fb k = false) →
    ((vx = 15 ∨ vy = 15) → s.x[15] = 0) → (∃ r < n, ∃ b < 8, spriteBit s r b = true) →
    ∃ t u, exec (.displaySprite vx vy n) s = .next t ∧ exec (.displaySprite vx vy n) t = .next u ∧
      t.x[15] = 0 ∧ u.x[15] = 1 ∧
      (∀ r < n, ∀ b < 8, pixel t.fb (spritePos s vx vy r b) = spriteBit s r b) ∧
      (∀ k < 2048, pixel u.fb k = false)

/-! ## Keys -/

/-- The two key skips: the whole register value is compared, so a value above 15 is never pressed (47_keys.md R180, R181;
derived in the spec, D28, log 19). -/
def Obligations.KeySkipsTestTheKeyOfTheRegister : Prop :=
  ∀ (vx : RegIx) (s : State),
    (∀ m, s.keys = some m → keysNow s = m) ∧
    exec (.skipKeyPressed vx) s =
      .next { s with pc := s.pc + if s.x[vx].toNat ≤ 15 ∧ (keysNow s).getLsbD s.x[vx].toNat = true then 4 else 2 } ∧
    exec (.skipKeyNotPressed vx) s =
      .next { s with pc := s.pc + if s.x[vx].toNat ≤ 15 ∧ (keysNow s).getLsbD s.x[vx].toNat = true then 2 else 4 }

/-- WaitKey: nothing changes while no key is pressed (40_step_and_control_flow.md R114), else the lowest pressed key
(47_keys.md R182; the lowest is the spec's decision D11, log 13). -/
def Obligations.WaitKeyStaysOrTakesTheLowestKey : Prop :=
  ∀ (vx : RegIx) (s : State),
    (keysNow s = 0 → exec (.waitKey vx) s = .next s) ∧
    (keysNow s ≠ 0 → ∃ k < 16, (keysNow s).getLsbD k = true ∧ (∀ j < k, (keysNow s).getLsbD j = false) ∧
      exec (.waitKey vx) s = .next { s with x := s.x.set vx (BitVec.ofNat 8 k), pc := s.pc + 2 })

/-- A blocked WaitKey goes on blocking for as long as the host calls with no key pressed, ticks between the calls
included: nothing but the timers and the model's own input fields changes (40_step_and_control_flow.md R114, 47_keys.md
R182; log 1, log 2). -/
def Obligations.BlockedWaitKeyIsIdempotent : Prop :=
  ∀ (vx : RegIx) (ops : List Operation) (s : State), s.halted = none →
    (∃ w, fetch s = .ok w ∧ decodeWord w = some (.waitKey vx)) →
    (∀ op ∈ ops, op = .tickTimers ∨ ∃ r, op = .step 0 r) →
    SafeCalls ops s ∧ ∃ t, Operation.run ops s = .next t ∧
      t = { s with DT := t.DT, ST := t.ST, keys := t.keys, rnd := t.rnd, steps := t.steps }

/-- No other instruction reads the key set (47_keys.md R183; log 1). -/
def Obligations.KeysAreReadOnlyByKeyInstructions : Prop :=
  ∀ (i : Instr) (s : State) (k : Option KeyMask) (n : Nat),
    (∀ vx, i ≠ .skipKeyPressed vx ∧ i ≠ .skipKeyNotPressed vx ∧ i ≠ .waitKey vx) →
    exec i { s with keys := k, steps := n } = mapNext (fun t => { t with keys := k, steps := n }) (exec i s)

/-! ## Whole-machine rules -/

/-- The general registers an instruction leaves alone: all but its destination and, for the six flag writers, `x[15]`
(10_state.md R22, 70_reset_and_hazards.md R235). -/
def Obligations.OnlyDestinationAndFlagChange : Prop :=
  ∀ (i : Instr) (s t : State) (r : RegIx), exec i s = .next t → mayWriteReg i r = false → t.x[r] = s.x[r]

/-- The other state an instruction leaves alone: `I` has three writers (10_state.md R27), `DT` and `ST` one each (R28),
the stack two (R29), the display two (R33), `halted` and the parameters none (R32, R35). -/
def Obligations.SpecialStateHasOnlyItsWriters : Prop :=
  ∀ (i : Instr) (s t : State), exec i s = .next t →
    ((∀ nnn vx, i ≠ .loadI nnn ∧ i ≠ .addIVx vx ∧ i ≠ .loadFontVx vx) → t.I = s.I) ∧
    ((∀ vx, i ≠ .loadDtVx vx) → t.DT = s.DT) ∧
    ((∀ vx, i ≠ .loadStVx vx) → t.ST = s.ST) ∧
    ((∀ nnn, i ≠ .call nnn ∧ i ≠ .ret) → t.stack = s.stack) ∧
    ((∀ vx vy n, i ≠ .clearDisplay ∧ i ≠ .displaySprite vx vy n) → t.fb = s.fb) ∧
    t.halted = s.halted ∧ t.cfg = s.cfg ∧ t.keys = s.keys ∧ t.steps = s.steps

/-- Every byte but those an instruction stores to reads as before (20_memory.md R59, R63). -/
def Obligations.OnlyStoredBytesChange : Prop :=
  ∀ (i : Instr) (s t : State) (a : Nat), exec i s = .next t → a ∉ storedTo i s → readByte t a = readByte s a

/-- Which outcome each instruction yields, as the table of 40_step_and_control_flow.md R103 and the list below it say, with
the targets that R105 to R108 give Return, Call, Jump and JumpV0. That the sum of JumpV0 is not reduced is the spec's
decision D20 (log 17). -/
def Obligations.EachInstructionYieldsItsOutcome : Prop :=
  ∀ (i : Instr) (s t : State), exec i s = .next t → pcAfter i s t.pc

/-- With a fatal self-check the only instruction that leaves `pc` unchanged is a WaitKey with no key pressed, and it
changes nothing at all (40_step_and_control_flow.md R104, R114; the moment of the check is D6, log 9). -/
def Obligations.OnlyBlockedWaitKeepsThePc : Prop :=
  ∀ (i : Instr) (s t : State), exec i s = .next t → s.cfg.stuckPcFatal = true → t.pc = s.pc →
    (∃ vx, i = .waitKey vx) ∧ keysNow s = 0 ∧ t = s

/-- After a flag writer whose destination is another register, `VF` is 0 or 1 where the shift flag is normalized
(10_state.md R38, R39). -/
def Obligations.FlagWritersLeaveZeroOrOne : Prop :=
  ∀ (i : Instr) (s t : State), exec i s = .next t → leavesFlag i = true → s.cfg.shiftFlag = .normalized →
    t.x[15] = 0 ∨ t.x[15] = 1

/-- Each fatal condition comes only from the instructions that R200 names for it. -/
def Obligations.FaultsComeOnlyFromTheirInstructions : Prop :=
  ∀ (i : Instr) (s : State) (k : Fault), exec i s = .fault k →
    (k = .stackUnderflow ∧ i = .ret) ∨
    (k = .stackOverflow ∧ s.cfg.stackDepth ≠ none ∧ ∃ nnn, i = .call nnn) ∨
    (k = .stuckProgramCounter ∧ s.cfg.stuckPcFatal = true ∧
      (i = .ret ∨ ∃ nnn, i = .jump nnn ∨ i = .jumpV0 nnn ∨ i = .call nnn)) ∨
    (k = .memoryBoundsFault ∧ ∃ vx, i = .storeRegs vx ∨ i = .loadRegs vx ∨ i = .storeBcd vx ∨
      ∃ vy n, i = .displaySprite vx vy n) ∨
    (k = .displayRangeFault ∧ ∃ vx vy n, i = .displaySprite vx vy n)

/-- Every instruction is modelled: none is refused, and those that no rule lets fault always go on (60_exceptions.md
R200, R213). -/
def Obligations.InstructionsWithoutFaultAlwaysGoOn : Prop :=
  ∀ (i : Instr) (s : State),
    (∀ q, exec i s ≠ .refused q) ∧ (canFault i = false → ∃ t, exec i s = .next t)

/-- A step whose word is an instruction without a fault of its own goes on (40_step_and_control_flow.md R101,
60_exceptions.md R200). -/
def Obligations.StepOfAnInstructionWithoutFaultGoesOn : Prop :=
  ∀ (s : State) (w : Word) (i : Instr), s.halted = none → fetch s = .ok w → decodeWord w = some i →
    canFault i = false → StepsOn s

/-! ## Fatal conditions and Reset -/

/-- A halted engine accepts Reset and nothing else (10_state.md R35, 60_exceptions.md R210); that the model refuses the
other operations by name is log 14. -/
def Obligations.HaltedEngineAcceptsOnlyReset : Prop :=
  ∀ (s : State) (k : Fault) (op : Operation), s.halted = some k →
    step s = .refused (.engineHalted k) ∧
    (op ≠ .reset → op.apply s = .refused (.engineHalted k)) ∧
    ∃ t, Operation.reset.apply s = .next t ∧ t.halted = none ∧ t.pc = 0x200

/-- After a fatal condition a sequence of operations goes on only through a Reset, and then from the reset state, whatever
the faulting operation had done (60_exceptions.md R209, R210; log 14). -/
def Obligations.FaultLeadsOnOnlyThroughReset : Prop :=
  ∀ (op : Operation) (rest : List Operation) (s t : State) (k : Fault), s.halted = none → op.apply s = .fault k →
    Operation.run (op :: rest) s = .next t →
    ∃ later, rest = .reset :: later ∧ Operation.run later (resetOf s) = .next t

/-- What Reset leaves. `pc` and the place of the glyphs are the source's (70_reset_and_hazards.md R230); the other values
are the spec's decision D12 and the model's log 4, log 5 and log 22. -/
def Obligations.ResetLeavesTheDecidedValues : Prop :=
  ∀ s : State, ∃ t, Operation.reset.apply s = .next t ∧
    t.pc = 0x200 ∧ (∀ i : RegIx, t.x[i] = 0) ∧ t.I = 0 ∧ t.DT = 0 ∧ t.ST = 0 ∧ t.stack = [] ∧
    (∀ k < 2048, pixel t.fb k = false) ∧ t.halted = none ∧ t.cfg = s.cfg ∧
    (∀ (d : Fin 16) (k : Fin 5), readByte t (5 * d.val + k.val) = .ok s.cfg.glyphs[d][k]) ∧
    (∀ a, 80 ≤ a → a < 4096 → readByte t a = .ok 0)

/-! ## Invariants -/

/-- The state after Reset has the form of `State.Inv`, whatever the parameters (log 4). -/
def Obligations.ResetStateHasTheKeptForm : Prop :=
  State.reset.Inv ∧ ∀ cfg : Config, (State.resetWith cfg).Inv

/-- Every step keeps the form: memory canonical, not halted, `pc` at most 0x10FE, return addresses at most 4096
(10_state.md R26), the stack within its capacity (R30). -/
def Obligations.StepKeepsTheForm : Prop :=
  ∀ s t : State, s.Inv → step s = .next t → t.Inv

/-- Every sequence of host operations keeps the form, through fatal conditions and Resets (42_timers.md R134,
60_exceptions.md R215). -/
def Obligations.HostOperationsKeepTheForm : Prop :=
  ∀ (ops : List Operation) (s t : State), s.Inv → Operation.run ops s = .next t → t.Inv
end

