-- ==== Sys2Proof/Laws/Decode.lean ====
section
/-! SUPPORT. The decode table: a row that matches a word has the word's top nibble, so the search over the table is the
search over the rows of one top nibble; and what each mask leaves of an operand field laid into a word. -/

namespace Sys2Proof

/-- Every mask keeps the top nibble, so a row matches only words of its own top nibble (30_encoding.md R72, R75). -/
theorem matchesWord_op {r : Row} {w : Word} (h : r.matchesWord w = true) :
    w &&& 0xF000 = r.pattern &&& 0xF000 := by
  simp only [Row.matchesWord, beq_iff_eq] at h
  rw [← h, BitVec.and_assoc]
  congr 1
  cases r.format <;> rfl

theorem firstRow_filter (w : Word) (rows : List Row) :
    firstRow rows w = firstRow (rows.filter fun r => r.pattern &&& 0xF000 == w &&& 0xF000) w := by
  induction rows with
  | nil => rfl
  | cons r rest ih =>
    rw [List.filter_cons]
    by_cases hm : r.matchesWord w = true
    · rw [if_pos (by rw [matchesWord_op hm]; exact beq_self_eq_true _)]
      simp [firstRow, hm]
    · split
      · simp [firstRow, hm, ih]
      · simp [firstRow, hm, ih]

/-- The rows of the table whose patterns have the top nibble of `c`. -/
def rowsOfOp (c : Word) : List Row := opcodeTable.filter fun r => r.pattern &&& 0xF000 == c

/-- A word whose top nibble is known is looked up among the rows of that nibble. -/
theorem firstRow_of_op {w c : Word} (h : w &&& 0xF000 = c) : firstRow opcodeTable w = firstRow (rowsOfOp c) w := by
  rw [firstRow_filter, h]; rfl

/-! ### Words and their bytes -/

/-- The byte at the lower address is the more significant half (20_memory.md R57). -/
theorem wordOfBytes_toNat (hi lo : Byte) : (wordOfBytes hi lo).toNat = hi.toNat * 256 + lo.toNat := by
  have h : (wordOfBytes hi lo).toNat = hi.toNat <<< 8 ||| lo.toNat := BitVec.toNat_append hi lo
  rw [h, ← Nat.shiftLeft_add_eq_or_of_lt (b := lo.toNat) lo.isLt, Nat.shiftLeft_eq]

theorem wordOfBytes_eq (hi lo : Byte) : wordOfBytes hi lo = BitVec.ofNat 16 (hi.toNat * 256 + lo.toNat) := by
  apply BitVec.eq_of_toNat_eq
  rw [wordOfBytes_toNat, BitVec.toNat_ofNat, Nat.mod_eq_of_lt (by have := hi.isLt; have := lo.isLt; omega)]

/-- The two bytes of a word make it again. -/
theorem wordOfBytes_bytesOfWord (w : Word) : wordOfBytes (w.extractLsb' 8 8) (w.extractLsb' 0 8) = w := by
  apply BitVec.eq_of_toNat_eq
  rw [wordOfBytes_toNat]
  simp [Nat.shiftRight_eq_div_pow]
  omega

/-! ### What a mask leaves of a field -/

theorem and_or_right (a b m : Word) : (a ||| b) &&& m = (a &&& m) ||| (b &&& m) := by
  rw [BitVec.and_comm, BitVec.and_or_distrib_left, BitVec.and_comm m a, BitVec.and_comm m b]

theorem placeX_and_op : ∀ vx, placeX vx &&& 0xF000#16 = 0#16 := by decide
theorem placeX_and_xy : ∀ vx, placeX vx &&& 0xF00F#16 = 0#16 := by decide
theorem placeX_and_x : ∀ vx, placeX vx &&& 0xF0FF#16 = 0#16 := by decide
theorem placeY_and_op : ∀ vy, placeY vy &&& 0xF000#16 = 0#16 := by decide
theorem placeY_and_xy : ∀ vy, placeY vy &&& 0xF00F#16 = 0#16 := by decide

theorem low_and_op (v : Word) (h : v.toNat < 4096) : v &&& 0xF000#16 = 0#16 := by
  apply BitVec.eq_of_toNat_eq
  have key : ∀ n < 4096, n &&& 0xF000 = 0 := by
    intro n hn
    apply Nat.eq_of_testBit_eq
    intro k
    rw [Nat.testBit_and, Nat.zero_testBit]
    by_cases hk : k < 12
    · have : Nat.testBit 0xF000 k = false := by interval_cases k <;> decide
      rw [this, Bool.and_false]
    · have : n.testBit k = false := by
        apply Nat.testBit_lt_two_pow
        calc n < 2 ^ 12 := hn
          _ ≤ 2 ^ k := Nat.pow_le_pow_right (by decide) (by omega)
      rw [this, Bool.false_and]
  simpa using key v.toNat h

theorem placeNN_and_op (nn : Byte) : placeNN nn &&& 0xF000#16 = 0#16 :=
  low_and_op _ (by simp [placeNN]; omega)

theorem placeNNN_and_op (nnn : Addr) : placeNNN nnn &&& 0xF000#16 = 0#16 :=
  low_and_op _ (by simp [placeNNN]; omega)

theorem placeN_and_op {n : Nat} (h : n ≤ 15) : placeN n &&& 0xF000#16 = 0#16 :=
  low_and_op _ (by simp [placeN]; omega)

end Sys2Proof
end

