-- ==== Sys2Proof/Laws/Memory.lean ====
section
/-! SUPPORT. Memory: what a byte reads after a write, and that every memory operation keeps the canonical form. -/

namespace Sys2Proof.Machine

theorem read_insertCell (g : Glyphs) (m : Memory) (a b : Nat) (v : Byte) :
    Memory.read g (Memory.insertCell a v m) b = if b = a then v else Memory.read g m b := by
  induction m with
  | nil => simp [Memory.insertCell, Memory.read]
  | cons c rest ih =>
    obtain ⟨d, w⟩ := c
    simp only [Memory.insertCell]
    split
    · simp [Memory.read]
    · split
      · next h => subst h; simp only [Memory.read]; split <;> rfl
      · next h1 h2 =>
        simp only [Memory.read, ih]
        split
        · next h => subst h; simp [Ne.symm h2]
        · rfl

theorem read_eraseCell (g : Glyphs) (m : Memory) (a b : Nat) :
    Memory.read g (Memory.eraseCell a m) b = if b = a then unlisted g b else Memory.read g m b := by
  induction m with
  | nil => simp [Memory.eraseCell, Memory.read]
  | cons c rest ih =>
    obtain ⟨d, w⟩ := c
    simp only [Memory.eraseCell, List.filter_cons] at ih ⊢
    by_cases h : d = a
    · subst h
      simp only [bne_self_eq_false, Bool.false_eq_true, if_false, ih, Memory.read]
      split
      · rfl
      · rfl
    · simp only [bne_iff_ne, ne_eq, h, not_false_eq_true, if_true, Memory.read, ih]
      by_cases hb : b = d
      · subst hb; simp [h]
      · simp [hb]

/-- A byte reads what was last written to it, and every other byte reads as before (20_memory.md R54, R63). -/
theorem read_write (g : Glyphs) (m : Memory) (a b : Nat) (v : Byte) :
    Memory.read g (Memory.write g m a v) b = if b = a then v else Memory.read g m b := by
  unfold Memory.write
  split
  · next h =>
    rw [read_eraseCell]
    split
    · next hb => rw [hb, h]
    · rfl
  · exact read_insertCell g m a b v

@[simp] theorem read_write_self (g : Glyphs) (m : Memory) (a : Nat) (v : Byte) :
    Memory.read g (Memory.write g m a v) a = v := by
  simp [read_write]

theorem read_write_other (g : Glyphs) (m : Memory) (a b : Nat) (v : Byte) (h : b ≠ a) :
    Memory.read g (Memory.write g m a v) b = Memory.read g m b := by
  simp [read_write, h]

/-- After a copy, the bytes of its range read what was copied and all others read as before (20_memory.md R55). -/
theorem read_writeAll (g : Glyphs) (vs : List Byte) (m : Memory) (a b : Nat) :
    Memory.read g (Memory.writeAll g m a vs) b
      = if a ≤ b then vs[b - a]?.getD (Memory.read g m b) else Memory.read g m b := by
  induction vs generalizing m a with
  | nil => simp [Memory.writeAll]
  | cons v vs ih =>
    rw [Memory.writeAll, ih, read_write]
    by_cases h : a + 1 ≤ b
    · have h1 : b - a = (b - (a + 1)) + 1 := by omega
      have h2 : b ≠ a := by omega
      simp only [h, if_true, h2, if_false, show a ≤ b by omega, h1, List.getElem?_cons_succ]
    · by_cases h3 : b = a
      · subst h3; simp
      · have h4 : ¬ a ≤ b := by omega
        simp [h, h3, h4]

theorem read_writeAll_inside (g : Glyphs) (vs : List Byte) (m : Memory) (a k : Nat) (h : k < vs.length) :
    Memory.read g (Memory.writeAll g m a vs) (a + k) = vs[k] := by
  simp [read_writeAll, h]

theorem read_writeAll_outside (g : Glyphs) (vs : List Byte) (m : Memory) (a b : Nat)
    (h : b < a ∨ a + vs.length ≤ b) :
    Memory.read g (Memory.writeAll g m a vs) b = Memory.read g m b := by
  rw [read_writeAll]
  split
  · rw [List.getElem?_eq_none (by omega)]; rfl
  · rfl

/-! ### The canonical form -/

theorem risesFrom_mono {lo lo' : Nat} {m : Memory} (h : lo' ≤ lo) (hm : Memory.risesFrom lo m = true) :
    Memory.risesFrom lo' m = true := by
  cases m with
  | nil => rfl
  | cons c rest =>
    simp only [Memory.risesFrom, Bool.and_eq_true, decide_eq_true_eq] at hm ⊢
    exact ⟨by omega, hm.2⟩

theorem risesFrom_insertCell {m : Memory} {lo a : Nat} {v : Byte} (hlo : lo ≤ a)
    (hm : Memory.risesFrom lo m = true) : Memory.risesFrom lo (Memory.insertCell a v m) = true := by
  induction m generalizing lo with
  | nil => simp [Memory.insertCell, Memory.risesFrom, hlo]
  | cons c rest ih =>
    obtain ⟨d, w⟩ := c
    simp only [Memory.risesFrom, Bool.and_eq_true, decide_eq_true_eq] at hm
    simp only [Memory.insertCell]
    split
    · next h =>
      simp only [Memory.risesFrom, Bool.and_eq_true, decide_eq_true_eq]
      exact ⟨hlo, by omega, hm.2⟩
    · split
      · next h => subst h; simp only [Memory.risesFrom, Bool.and_eq_true, decide_eq_true_eq]; exact hm
      · simp only [Memory.risesFrom, Bool.and_eq_true, decide_eq_true_eq]
        exact ⟨hm.1, ih (by omega) hm.2⟩

theorem risesFrom_eraseCell {m : Memory} {lo a : Nat} (hm : Memory.risesFrom lo m = true) :
    Memory.risesFrom lo (Memory.eraseCell a m) = true := by
  induction m generalizing lo with
  | nil => rfl
  | cons c rest ih =>
    simp only [Memory.risesFrom, Bool.and_eq_true, decide_eq_true_eq] at hm
    simp only [Memory.eraseCell, List.filter_cons]
    split
    · simp only [Memory.risesFrom, Bool.and_eq_true, decide_eq_true_eq]
      exact ⟨hm.1, ih hm.2⟩
    · exact risesFrom_mono (by omega) (ih hm.2)

theorem mem_insertCell {m : Memory} {a : Nat} {v : Byte} {c : Host.Cell}
    (h : c ∈ Memory.insertCell a v m) : c = (a, v) ∨ c ∈ m := by
  induction m with
  | nil => simpa [Memory.insertCell] using h
  | cons d rest ih =>
    obtain ⟨e, w⟩ := d
    simp only [Memory.insertCell] at h
    split at h
    · simpa using h
    · split at h
      · rcases List.mem_cons.1 h with h | h
        · exact .inl h
        · exact .inr (List.mem_cons_of_mem _ h)
      · rcases List.mem_cons.1 h with h | h
        · exact .inr (by simp [h])
        · exact (ih h).imp id (List.mem_cons_of_mem _)

/-- A write to an address of memory keeps the canonical form. -/
theorem wf_write {g : Glyphs} {m : Memory} {a : Nat} (v : Byte) (ha : a < memSize)
    (hm : Memory.wf g m = true) : Memory.wf g (Memory.write g m a v) = true := by
  simp only [Memory.wf, Bool.and_eq_true, List.all_eq_true, decide_eq_true_eq, bne_iff_ne] at hm ⊢
  unfold Memory.write
  split
  · exact ⟨risesFrom_eraseCell hm.1, fun c hc => hm.2 c (List.mem_of_mem_filter hc)⟩
  · next h =>
    refine ⟨risesFrom_insertCell (Nat.zero_le a) hm.1, fun c hc => ?_⟩
    rcases mem_insertCell hc with rfl | hc
    · exact ⟨ha, h⟩
    · exact hm.2 c hc

/-- A copy within memory keeps the canonical form. -/
theorem wf_writeAll {g : Glyphs} (vs : List Byte) {m : Memory} {a : Nat} (ha : a + vs.length ≤ memSize)
    (hm : Memory.wf g m = true) : Memory.wf g (Memory.writeAll g m a vs) = true := by
  induction vs generalizing m a with
  | nil => exact hm
  | cons v vs ih =>
    simp only [List.length_cons] at ha
    exact ih (by omega) (wf_write v (by omega) hm)

/-- Memory with nothing listed is in canonical form. -/
theorem wf_nil (g : Glyphs) : Memory.wf g [] = true := rfl

/-- The memory of the state after reset is in canonical form, whatever the parameters. -/
theorem resetWith_memory_wf (cfg : Config) : (State.resetWith cfg).mem.wf cfg.glyphs = true := rfl

end Sys2Proof.Machine
end

