-- ==== Sys2Proof/Laws/State.lean ====
section
/-! SUPPORT. One lemma per field per update of State, true by rfl, so that no later proof unfolds a record update; what
reading a register gives after each update; each update as a record; and that memory's bytes do not depend on the rest. -/

namespace Sys2Proof.Machine

variable (s : State)

/-! ### setReg -/

@[simp] theorem setReg_x (i : RegIx) (v : Byte) : (s.setReg i v).x = s.x.set i v := rfl
@[simp] theorem setReg_I (i : RegIx) (v : Byte) : (s.setReg i v).I = s.I := rfl
@[simp] theorem setReg_DT (i : RegIx) (v : Byte) : (s.setReg i v).DT = s.DT := rfl
@[simp] theorem setReg_ST (i : RegIx) (v : Byte) : (s.setReg i v).ST = s.ST := rfl
@[simp] theorem setReg_pc (i : RegIx) (v : Byte) : (s.setReg i v).pc = s.pc := rfl
@[simp] theorem setReg_stack (i : RegIx) (v : Byte) : (s.setReg i v).stack = s.stack := rfl
@[simp] theorem setReg_mem (i : RegIx) (v : Byte) : (s.setReg i v).mem = s.mem := rfl
@[simp] theorem setReg_fb (i : RegIx) (v : Byte) : (s.setReg i v).fb = s.fb := rfl
@[simp] theorem setReg_halted (i : RegIx) (v : Byte) : (s.setReg i v).halted = s.halted := rfl
@[simp] theorem setReg_cfg (i : RegIx) (v : Byte) : (s.setReg i v).cfg = s.cfg := rfl
@[simp] theorem setReg_keys (i : RegIx) (v : Byte) : (s.setReg i v).keys = s.keys := rfl
@[simp] theorem setReg_rnd (i : RegIx) (v : Byte) : (s.setReg i v).rnd = s.rnd := rfl
@[simp] theorem setReg_steps (i : RegIx) (v : Byte) : (s.setReg i v).steps = s.steps := rfl
@[simp] theorem setReg_drawn (i : RegIx) (v : Byte) : (s.setReg i v).drawn = s.drawn := rfl
@[simp] theorem readByte_setReg (i : RegIx) (v : Byte) (adr : Nat) : readByte (s.setReg i v) adr = readByte s adr := rfl
theorem setReg_eq (i : RegIx) (v : Byte) : s.setReg i v = { s with x := s.x.set i v } := rfl

/-! ### setFirstRegs -/

@[simp] theorem setFirstRegs_x (bs : List Byte) : (s.setFirstRegs bs).x = loadRegsFrom s.x 0 bs := rfl
@[simp] theorem setFirstRegs_I (bs : List Byte) : (s.setFirstRegs bs).I = s.I := rfl
@[simp] theorem setFirstRegs_DT (bs : List Byte) : (s.setFirstRegs bs).DT = s.DT := rfl
@[simp] theorem setFirstRegs_ST (bs : List Byte) : (s.setFirstRegs bs).ST = s.ST := rfl
@[simp] theorem setFirstRegs_pc (bs : List Byte) : (s.setFirstRegs bs).pc = s.pc := rfl
@[simp] theorem setFirstRegs_stack (bs : List Byte) : (s.setFirstRegs bs).stack = s.stack := rfl
@[simp] theorem setFirstRegs_mem (bs : List Byte) : (s.setFirstRegs bs).mem = s.mem := rfl
@[simp] theorem setFirstRegs_fb (bs : List Byte) : (s.setFirstRegs bs).fb = s.fb := rfl
@[simp] theorem setFirstRegs_halted (bs : List Byte) : (s.setFirstRegs bs).halted = s.halted := rfl
@[simp] theorem setFirstRegs_cfg (bs : List Byte) : (s.setFirstRegs bs).cfg = s.cfg := rfl
@[simp] theorem setFirstRegs_keys (bs : List Byte) : (s.setFirstRegs bs).keys = s.keys := rfl
@[simp] theorem setFirstRegs_rnd (bs : List Byte) : (s.setFirstRegs bs).rnd = s.rnd := rfl
@[simp] theorem setFirstRegs_steps (bs : List Byte) : (s.setFirstRegs bs).steps = s.steps := rfl
@[simp] theorem setFirstRegs_drawn (bs : List Byte) : (s.setFirstRegs bs).drawn = s.drawn := rfl
@[simp] theorem readByte_setFirstRegs (bs : List Byte) (adr : Nat) : readByte (s.setFirstRegs bs) adr = readByte s adr := rfl
theorem setFirstRegs_eq (bs : List Byte) : s.setFirstRegs bs = { s with x := loadRegsFrom s.x 0 bs } := rfl

/-! ### setI -/

@[simp] theorem setI_x (v : Word) : (s.setI v).x = s.x := rfl
@[simp] theorem setI_I (v : Word) : (s.setI v).I = v := rfl
@[simp] theorem setI_DT (v : Word) : (s.setI v).DT = s.DT := rfl
@[simp] theorem setI_ST (v : Word) : (s.setI v).ST = s.ST := rfl
@[simp] theorem setI_pc (v : Word) : (s.setI v).pc = s.pc := rfl
@[simp] theorem setI_stack (v : Word) : (s.setI v).stack = s.stack := rfl
@[simp] theorem setI_mem (v : Word) : (s.setI v).mem = s.mem := rfl
@[simp] theorem setI_fb (v : Word) : (s.setI v).fb = s.fb := rfl
@[simp] theorem setI_halted (v : Word) : (s.setI v).halted = s.halted := rfl
@[simp] theorem setI_cfg (v : Word) : (s.setI v).cfg = s.cfg := rfl
@[simp] theorem setI_keys (v : Word) : (s.setI v).keys = s.keys := rfl
@[simp] theorem setI_rnd (v : Word) : (s.setI v).rnd = s.rnd := rfl
@[simp] theorem setI_steps (v : Word) : (s.setI v).steps = s.steps := rfl
@[simp] theorem setI_drawn (v : Word) : (s.setI v).drawn = s.drawn := rfl
@[simp] theorem reg_setI (v : Word) (j : RegIx) : (s.setI v).reg j = s.reg j := rfl
@[simp] theorem readByte_setI (v : Word) (adr : Nat) : readByte (s.setI v) adr = readByte s adr := rfl
theorem setI_eq (v : Word) : s.setI v = { s with I := v } := rfl

/-! ### setDT -/

@[simp] theorem setDT_x (v : Byte) : (s.setDT v).x = s.x := rfl
@[simp] theorem setDT_I (v : Byte) : (s.setDT v).I = s.I := rfl
@[simp] theorem setDT_DT (v : Byte) : (s.setDT v).DT = v := rfl
@[simp] theorem setDT_ST (v : Byte) : (s.setDT v).ST = s.ST := rfl
@[simp] theorem setDT_pc (v : Byte) : (s.setDT v).pc = s.pc := rfl
@[simp] theorem setDT_stack (v : Byte) : (s.setDT v).stack = s.stack := rfl
@[simp] theorem setDT_mem (v : Byte) : (s.setDT v).mem = s.mem := rfl
@[simp] theorem setDT_fb (v : Byte) : (s.setDT v).fb = s.fb := rfl
@[simp] theorem setDT_halted (v : Byte) : (s.setDT v).halted = s.halted := rfl
@[simp] theorem setDT_cfg (v : Byte) : (s.setDT v).cfg = s.cfg := rfl
@[simp] theorem setDT_keys (v : Byte) : (s.setDT v).keys = s.keys := rfl
@[simp] theorem setDT_rnd (v : Byte) : (s.setDT v).rnd = s.rnd := rfl
@[simp] theorem setDT_steps (v : Byte) : (s.setDT v).steps = s.steps := rfl
@[simp] theorem setDT_drawn (v : Byte) : (s.setDT v).drawn = s.drawn := rfl
@[simp] theorem reg_setDT (v : Byte) (j : RegIx) : (s.setDT v).reg j = s.reg j := rfl
@[simp] theorem readByte_setDT (v : Byte) (adr : Nat) : readByte (s.setDT v) adr = readByte s adr := rfl
theorem setDT_eq (v : Byte) : s.setDT v = { s with DT := v } := rfl

/-! ### setST -/

@[simp] theorem setST_x (v : Byte) : (s.setST v).x = s.x := rfl
@[simp] theorem setST_I (v : Byte) : (s.setST v).I = s.I := rfl
@[simp] theorem setST_DT (v : Byte) : (s.setST v).DT = s.DT := rfl
@[simp] theorem setST_ST (v : Byte) : (s.setST v).ST = v := rfl
@[simp] theorem setST_pc (v : Byte) : (s.setST v).pc = s.pc := rfl
@[simp] theorem setST_stack (v : Byte) : (s.setST v).stack = s.stack := rfl
@[simp] theorem setST_mem (v : Byte) : (s.setST v).mem = s.mem := rfl
@[simp] theorem setST_fb (v : Byte) : (s.setST v).fb = s.fb := rfl
@[simp] theorem setST_halted (v : Byte) : (s.setST v).halted = s.halted := rfl
@[simp] theorem setST_cfg (v : Byte) : (s.setST v).cfg = s.cfg := rfl
@[simp] theorem setST_keys (v : Byte) : (s.setST v).keys = s.keys := rfl
@[simp] theorem setST_rnd (v : Byte) : (s.setST v).rnd = s.rnd := rfl
@[simp] theorem setST_steps (v : Byte) : (s.setST v).steps = s.steps := rfl
@[simp] theorem setST_drawn (v : Byte) : (s.setST v).drawn = s.drawn := rfl
@[simp] theorem reg_setST (v : Byte) (j : RegIx) : (s.setST v).reg j = s.reg j := rfl
@[simp] theorem readByte_setST (v : Byte) (adr : Nat) : readByte (s.setST v) adr = readByte s adr := rfl
theorem setST_eq (v : Byte) : s.setST v = { s with ST := v } := rfl

/-! ### setPc -/

@[simp] theorem setPc_x (v : Word) : (s.setPc v).x = s.x := rfl
@[simp] theorem setPc_I (v : Word) : (s.setPc v).I = s.I := rfl
@[simp] theorem setPc_DT (v : Word) : (s.setPc v).DT = s.DT := rfl
@[simp] theorem setPc_ST (v : Word) : (s.setPc v).ST = s.ST := rfl
@[simp] theorem setPc_pc (v : Word) : (s.setPc v).pc = v := rfl
@[simp] theorem setPc_stack (v : Word) : (s.setPc v).stack = s.stack := rfl
@[simp] theorem setPc_mem (v : Word) : (s.setPc v).mem = s.mem := rfl
@[simp] theorem setPc_fb (v : Word) : (s.setPc v).fb = s.fb := rfl
@[simp] theorem setPc_halted (v : Word) : (s.setPc v).halted = s.halted := rfl
@[simp] theorem setPc_cfg (v : Word) : (s.setPc v).cfg = s.cfg := rfl
@[simp] theorem setPc_keys (v : Word) : (s.setPc v).keys = s.keys := rfl
@[simp] theorem setPc_rnd (v : Word) : (s.setPc v).rnd = s.rnd := rfl
@[simp] theorem setPc_steps (v : Word) : (s.setPc v).steps = s.steps := rfl
@[simp] theorem setPc_drawn (v : Word) : (s.setPc v).drawn = s.drawn := rfl
@[simp] theorem reg_setPc (v : Word) (j : RegIx) : (s.setPc v).reg j = s.reg j := rfl
@[simp] theorem readByte_setPc (v : Word) (adr : Nat) : readByte (s.setPc v) adr = readByte s adr := rfl
theorem setPc_eq (v : Word) : s.setPc v = { s with pc := v } := rfl

/-! ### setStack -/

@[simp] theorem setStack_x (v : List Word) : (s.setStack v).x = s.x := rfl
@[simp] theorem setStack_I (v : List Word) : (s.setStack v).I = s.I := rfl
@[simp] theorem setStack_DT (v : List Word) : (s.setStack v).DT = s.DT := rfl
@[simp] theorem setStack_ST (v : List Word) : (s.setStack v).ST = s.ST := rfl
@[simp] theorem setStack_pc (v : List Word) : (s.setStack v).pc = s.pc := rfl
@[simp] theorem setStack_stack (v : List Word) : (s.setStack v).stack = v := rfl
@[simp] theorem setStack_mem (v : List Word) : (s.setStack v).mem = s.mem := rfl
@[simp] theorem setStack_fb (v : List Word) : (s.setStack v).fb = s.fb := rfl
@[simp] theorem setStack_halted (v : List Word) : (s.setStack v).halted = s.halted := rfl
@[simp] theorem setStack_cfg (v : List Word) : (s.setStack v).cfg = s.cfg := rfl
@[simp] theorem setStack_keys (v : List Word) : (s.setStack v).keys = s.keys := rfl
@[simp] theorem setStack_rnd (v : List Word) : (s.setStack v).rnd = s.rnd := rfl
@[simp] theorem setStack_steps (v : List Word) : (s.setStack v).steps = s.steps := rfl
@[simp] theorem setStack_drawn (v : List Word) : (s.setStack v).drawn = s.drawn := rfl
@[simp] theorem reg_setStack (v : List Word) (j : RegIx) : (s.setStack v).reg j = s.reg j := rfl
@[simp] theorem readByte_setStack (v : List Word) (adr : Nat) : readByte (s.setStack v) adr = readByte s adr := rfl
theorem setStack_eq (v : List Word) : s.setStack v = { s with stack := v } := rfl

/-! ### setMem -/

@[simp] theorem setMem_x (v : Memory) : (s.setMem v).x = s.x := rfl
@[simp] theorem setMem_I (v : Memory) : (s.setMem v).I = s.I := rfl
@[simp] theorem setMem_DT (v : Memory) : (s.setMem v).DT = s.DT := rfl
@[simp] theorem setMem_ST (v : Memory) : (s.setMem v).ST = s.ST := rfl
@[simp] theorem setMem_pc (v : Memory) : (s.setMem v).pc = s.pc := rfl
@[simp] theorem setMem_stack (v : Memory) : (s.setMem v).stack = s.stack := rfl
@[simp] theorem setMem_mem (v : Memory) : (s.setMem v).mem = v := rfl
@[simp] theorem setMem_fb (v : Memory) : (s.setMem v).fb = s.fb := rfl
@[simp] theorem setMem_halted (v : Memory) : (s.setMem v).halted = s.halted := rfl
@[simp] theorem setMem_cfg (v : Memory) : (s.setMem v).cfg = s.cfg := rfl
@[simp] theorem setMem_keys (v : Memory) : (s.setMem v).keys = s.keys := rfl
@[simp] theorem setMem_rnd (v : Memory) : (s.setMem v).rnd = s.rnd := rfl
@[simp] theorem setMem_steps (v : Memory) : (s.setMem v).steps = s.steps := rfl
@[simp] theorem setMem_drawn (v : Memory) : (s.setMem v).drawn = s.drawn := rfl
@[simp] theorem reg_setMem (v : Memory) (j : RegIx) : (s.setMem v).reg j = s.reg j := rfl
theorem setMem_eq (v : Memory) : s.setMem v = { s with mem := v } := rfl

/-! ### setFb -/

@[simp] theorem setFb_x (v : Display) : (s.setFb v).x = s.x := rfl
@[simp] theorem setFb_I (v : Display) : (s.setFb v).I = s.I := rfl
@[simp] theorem setFb_DT (v : Display) : (s.setFb v).DT = s.DT := rfl
@[simp] theorem setFb_ST (v : Display) : (s.setFb v).ST = s.ST := rfl
@[simp] theorem setFb_pc (v : Display) : (s.setFb v).pc = s.pc := rfl
@[simp] theorem setFb_stack (v : Display) : (s.setFb v).stack = s.stack := rfl
@[simp] theorem setFb_mem (v : Display) : (s.setFb v).mem = s.mem := rfl
@[simp] theorem setFb_fb (v : Display) : (s.setFb v).fb = v := rfl
@[simp] theorem setFb_halted (v : Display) : (s.setFb v).halted = s.halted := rfl
@[simp] theorem setFb_cfg (v : Display) : (s.setFb v).cfg = s.cfg := rfl
@[simp] theorem setFb_keys (v : Display) : (s.setFb v).keys = s.keys := rfl
@[simp] theorem setFb_rnd (v : Display) : (s.setFb v).rnd = s.rnd := rfl
@[simp] theorem setFb_steps (v : Display) : (s.setFb v).steps = s.steps := rfl
@[simp] theorem setFb_drawn (v : Display) : (s.setFb v).drawn = s.drawn := rfl
@[simp] theorem reg_setFb (v : Display) (j : RegIx) : (s.setFb v).reg j = s.reg j := rfl
@[simp] theorem readByte_setFb (v : Display) (adr : Nat) : readByte (s.setFb v) adr = readByte s adr := rfl
theorem setFb_eq (v : Display) : s.setFb v = { s with fb := v } := rfl

/-! ### haltWith -/

@[simp] theorem haltWith_x (k : Fault) : (s.haltWith k).x = s.x := rfl
@[simp] theorem haltWith_I (k : Fault) : (s.haltWith k).I = s.I := rfl
@[simp] theorem haltWith_DT (k : Fault) : (s.haltWith k).DT = s.DT := rfl
@[simp] theorem haltWith_ST (k : Fault) : (s.haltWith k).ST = s.ST := rfl
@[simp] theorem haltWith_pc (k : Fault) : (s.haltWith k).pc = s.pc := rfl
@[simp] theorem haltWith_stack (k : Fault) : (s.haltWith k).stack = s.stack := rfl
@[simp] theorem haltWith_mem (k : Fault) : (s.haltWith k).mem = s.mem := rfl
@[simp] theorem haltWith_fb (k : Fault) : (s.haltWith k).fb = s.fb := rfl
@[simp] theorem haltWith_halted (k : Fault) : (s.haltWith k).halted = some k := rfl
@[simp] theorem haltWith_cfg (k : Fault) : (s.haltWith k).cfg = s.cfg := rfl
@[simp] theorem haltWith_keys (k : Fault) : (s.haltWith k).keys = s.keys := rfl
@[simp] theorem haltWith_rnd (k : Fault) : (s.haltWith k).rnd = s.rnd := rfl
@[simp] theorem haltWith_steps (k : Fault) : (s.haltWith k).steps = s.steps := rfl
@[simp] theorem haltWith_drawn (k : Fault) : (s.haltWith k).drawn = s.drawn := rfl
@[simp] theorem reg_haltWith (k : Fault) (j : RegIx) : (s.haltWith k).reg j = s.reg j := rfl
@[simp] theorem readByte_haltWith (k : Fault) (adr : Nat) : readByte (s.haltWith k) adr = readByte s adr := rfl
theorem haltWith_eq (k : Fault) : s.haltWith k = { s with halted := some k } := rfl

/-! ### consumeDraw -/

@[simp] theorem consumeDraw_x : (s.consumeDraw).x = s.x := rfl
@[simp] theorem consumeDraw_I : (s.consumeDraw).I = s.I := rfl
@[simp] theorem consumeDraw_DT : (s.consumeDraw).DT = s.DT := rfl
@[simp] theorem consumeDraw_ST : (s.consumeDraw).ST = s.ST := rfl
@[simp] theorem consumeDraw_pc : (s.consumeDraw).pc = s.pc := rfl
@[simp] theorem consumeDraw_stack : (s.consumeDraw).stack = s.stack := rfl
@[simp] theorem consumeDraw_mem : (s.consumeDraw).mem = s.mem := rfl
@[simp] theorem consumeDraw_fb : (s.consumeDraw).fb = s.fb := rfl
@[simp] theorem consumeDraw_halted : (s.consumeDraw).halted = s.halted := rfl
@[simp] theorem consumeDraw_cfg : (s.consumeDraw).cfg = s.cfg := rfl
@[simp] theorem consumeDraw_keys : (s.consumeDraw).keys = s.keys := rfl
@[simp] theorem consumeDraw_rnd : (s.consumeDraw).rnd = none := rfl
@[simp] theorem consumeDraw_steps : (s.consumeDraw).steps = s.steps := rfl
@[simp] theorem consumeDraw_drawn : (s.consumeDraw).drawn = s.drawn + 1 := rfl
@[simp] theorem reg_consumeDraw (j : RegIx) : (s.consumeDraw).reg j = s.reg j := rfl
@[simp] theorem readByte_consumeDraw (adr : Nat) : readByte (s.consumeDraw) adr = readByte s adr := rfl
theorem consumeDraw_eq : s.consumeDraw = { s with rnd := none, drawn := s.drawn + 1 } := rfl

/-! ### nextCall -/

@[simp] theorem nextCall_x : (s.nextCall).x = s.x := rfl
@[simp] theorem nextCall_I : (s.nextCall).I = s.I := rfl
@[simp] theorem nextCall_DT : (s.nextCall).DT = s.DT := rfl
@[simp] theorem nextCall_ST : (s.nextCall).ST = s.ST := rfl
@[simp] theorem nextCall_pc : (s.nextCall).pc = s.pc := rfl
@[simp] theorem nextCall_stack : (s.nextCall).stack = s.stack := rfl
@[simp] theorem nextCall_mem : (s.nextCall).mem = s.mem := rfl
@[simp] theorem nextCall_fb : (s.nextCall).fb = s.fb := rfl
@[simp] theorem nextCall_halted : (s.nextCall).halted = s.halted := rfl
@[simp] theorem nextCall_cfg : (s.nextCall).cfg = s.cfg := rfl
@[simp] theorem nextCall_keys : (s.nextCall).keys = none := rfl
@[simp] theorem nextCall_rnd : (s.nextCall).rnd = s.rnd := rfl
@[simp] theorem nextCall_steps : (s.nextCall).steps = s.steps + 1 := rfl
@[simp] theorem nextCall_drawn : (s.nextCall).drawn = s.drawn := rfl
@[simp] theorem reg_nextCall (j : RegIx) : (s.nextCall).reg j = s.reg j := rfl
@[simp] theorem readByte_nextCall (adr : Nat) : readByte (s.nextCall) adr = readByte s adr := rfl
theorem nextCall_eq : s.nextCall = { s with keys := none, steps := s.steps + 1 } := rfl

/-! ### withArguments -/

@[simp] theorem withArguments_x (k : KeyMask) (r : Byte) : (s.withArguments k r).x = s.x := rfl
@[simp] theorem withArguments_I (k : KeyMask) (r : Byte) : (s.withArguments k r).I = s.I := rfl
@[simp] theorem withArguments_DT (k : KeyMask) (r : Byte) : (s.withArguments k r).DT = s.DT := rfl
@[simp] theorem withArguments_ST (k : KeyMask) (r : Byte) : (s.withArguments k r).ST = s.ST := rfl
@[simp] theorem withArguments_pc (k : KeyMask) (r : Byte) : (s.withArguments k r).pc = s.pc := rfl
@[simp] theorem withArguments_stack (k : KeyMask) (r : Byte) : (s.withArguments k r).stack = s.stack := rfl
@[simp] theorem withArguments_mem (k : KeyMask) (r : Byte) : (s.withArguments k r).mem = s.mem := rfl
@[simp] theorem withArguments_fb (k : KeyMask) (r : Byte) : (s.withArguments k r).fb = s.fb := rfl
@[simp] theorem withArguments_halted (k : KeyMask) (r : Byte) : (s.withArguments k r).halted = s.halted := rfl
@[simp] theorem withArguments_cfg (k : KeyMask) (r : Byte) : (s.withArguments k r).cfg = s.cfg := rfl
@[simp] theorem withArguments_keys (k : KeyMask) (r : Byte) : (s.withArguments k r).keys = some k := rfl
@[simp] theorem withArguments_rnd (k : KeyMask) (r : Byte) : (s.withArguments k r).rnd = some r := rfl
@[simp] theorem withArguments_steps (k : KeyMask) (r : Byte) : (s.withArguments k r).steps = s.steps := rfl
@[simp] theorem withArguments_drawn (k : KeyMask) (r : Byte) : (s.withArguments k r).drawn = s.drawn := rfl
@[simp] theorem reg_withArguments (k : KeyMask) (r : Byte) (j : RegIx) : (s.withArguments k r).reg j = s.reg j := rfl
@[simp] theorem readByte_withArguments (k : KeyMask) (r : Byte) (adr : Nat) : readByte (s.withArguments k r) adr = readByte s adr := rfl
theorem withArguments_eq (k : KeyMask) (r : Byte) : s.withArguments k r = { s with keys := some k, rnd := some r } := rfl

/-! ### Reading a register after a register write -/

theorem reg_setReg (i j : RegIx) (v : Byte) : (s.setReg i v).reg j = if i = j then v else s.reg j := by
  simp only [State.reg, setReg_x, Fin.getElem_fin, Vector.getElem_set, Fin.ext_iff]

@[simp] theorem reg_setReg_self (i : RegIx) (v : Byte) : (s.setReg i v).reg i = v := by
  simp [reg_setReg]

theorem reg_setReg_other (i j : RegIx) (v : Byte) (h : i ≠ j) : (s.setReg i v).reg j = s.reg j := by
  simp [reg_setReg, h]

theorem loadRegsFrom_getElem (x : Vector Byte 16) (k : Nat) (bs : List Byte) (j : Nat) (hj : j < 16) :
    (loadRegsFrom x k bs)[j] = if k ≤ j then bs[j - k]?.getD x[j] else x[j] := by
  induction bs generalizing x k with
  | nil => simp [loadRegsFrom]
  | cons b bs ih =>
    rw [loadRegsFrom, ih, Vector.getElem_setIfInBounds]
    by_cases h : k + 1 ≤ j
    · have h1 : j - k = (j - (k + 1)) + 1 := by omega
      simp only [h, if_true, show k ≤ j by omega, h1, List.getElem?_cons_succ, show ¬ k = j by omega, if_false]
    · by_cases h3 : k = j
      · subst h3; simp
      · simp [h, h3, show ¬ k ≤ j by omega]

/-- Register `j` after a block load: the byte of its place, or its old value above them (41_load_store.md R124). -/
theorem reg_setFirstRegs (bs : List Byte) (j : RegIx) :
    (s.setFirstRegs bs).reg j = bs[j.val]?.getD (s.reg j) := by
  simp [State.reg, loadRegsFrom_getElem]

@[simp] theorem setFlag_eq (v : Byte) : s.setFlag v = s.setReg vF v := rfl

@[simp] theorem setFlagThenReg_eq (f : Byte) (i : RegIx) (v : Byte) :
    s.setFlagThenReg f i v = (s.setReg vF f).setReg i v := rfl

theorem setFlagThenReg_record (f : Byte) (i : RegIx) (v : Byte) :
    s.setFlagThenReg f i v = { s with x := (s.x.set 15 f).set i v } := rfl

end Sys2Proof.Machine
end

