-- ==== Sys2Proof/Laws/Ops.lean ====
section
/-! SUPPORT. What each shared operation can do, said once: the byte accesses and their sequences, the fetch, the call
stack, and the end of a step. -/

namespace Sys2Proof.Machine

/-! ### Going on or taking a fatal condition -/

@[simp] theorem orRaise_ok {α : Type} (a : α) (f : α → Result) : orRaise (.ok a) f = f a := rfl

@[simp] theorem orRaise_error {α : Type} (k : Fault) (f : α → Result) :
    orRaise (.error k : Except Fault α) f = .fault k := rfl

/-- A result that goes on comes from a value that was there. -/
theorem orRaise_next {α : Type} {e : Except Fault α} {f : α → Result} {t : State} (h : orRaise e f = .next t) :
    ∃ a, e = .ok a ∧ f a = .next t := by
  cases e with
  | ok a => exact ⟨a, rfl, h⟩
  | error k => simp at h

/-- A fault comes from the access or from what follows it. -/
theorem orRaise_fault {α : Type} {e : Except Fault α} {f : α → Result} {k : Fault} (h : orRaise e f = .fault k) :
    e = .error k ∨ ∃ a, e = .ok a ∧ f a = .fault k := by
  cases e with
  | ok a => exact .inr ⟨a, rfl, h⟩
  | error j => exact .inl (by simpa using h)

/-! ### One byte -/

theorem readByte_eq {s : State} {a : Nat} (h : a < 4096) : readByte s a = .ok (s.mem.read s.cfg.glyphs a) := by
  simp [readByte, memSize, h]

theorem readByte_high {s : State} {a : Nat} (h : 4096 ≤ a) : readByte s a = .error .memoryBoundsFault := by
  simp [readByte, memSize, Nat.not_lt.2 h]

theorem writeByte_eq {s : State} {a : Nat} {v : Byte} (h : a < 4096) :
    writeByte s a v = .ok (s.setMem (s.mem.write s.cfg.glyphs a v)) := by
  simp [writeByte, memSize, h]

theorem writeByte_high {s : State} {a : Nat} {v : Byte} (h : 4096 ≤ a) :
    writeByte s a v = .error .memoryBoundsFault := by
  simp [writeByte, memSize, Nat.not_lt.2 h]

/-! ### Sequences of bytes -/

/-- A read of `n` bytes in range gives the bytes of memory. -/
theorem readBytes_eq {s : State} {a n : Nat} (h : n = 0 ∨ a + n ≤ 4096) :
    readBytes s a n = .ok ((List.range n).map fun k => s.mem.read s.cfg.glyphs (a + k)) := by
  induction n generalizing a with
  | zero => rfl
  | succ n ih =>
    have hn : a + (n + 1) ≤ 4096 := by omega
    rw [readBytes, readByte_eq (by omega)]
    simp only
    rw [ih (by omega), List.range_succ_eq_map]
    simp [Function.comp_def, Nat.add_comm, Nat.add_left_comm]

/-- A read that leaves memory faults. -/
theorem readBytes_high {s : State} {a n : Nat} (hn : n ≠ 0) (h : 4096 < a + n) :
    readBytes s a n = .error .memoryBoundsFault := by
  induction n generalizing a with
  | zero => exact absurd rfl hn
  | succ n ih =>
    rw [readBytes]
    by_cases ha : a < 4096
    · rw [readByte_eq ha]
      simp only
      rw [ih (by omega) (by omega)]
    · rw [readByte_high (by omega)]

/-- A store of bytes in range is the copy of all of them, and nothing else changes. -/
theorem writeBytes_eq {s : State} {a : Nat} {vs : List Byte} (h : vs = [] ∨ a + vs.length ≤ 4096) :
    writeBytes s a vs = .ok (s.setMem (s.mem.writeAll s.cfg.glyphs a vs)) := by
  induction vs generalizing a s with
  | nil => rfl
  | cons v vs ih =>
    have hl : a + (vs.length + 1) ≤ 4096 := by simpa using h
    rw [writeBytes, writeByte_eq (by omega)]
    simp only
    rw [ih (by by_cases hv : vs = [] <;> [exact .inl hv; exact .inr (by omega)])]
    rfl

/-- A store that leaves memory faults. -/
theorem writeBytes_high {s : State} {a : Nat} {vs : List Byte} (hv : vs ≠ []) (h : 4096 < a + vs.length) :
    writeBytes s a vs = .error .memoryBoundsFault := by
  induction vs generalizing a s with
  | nil => exact absurd rfl hv
  | cons v vs ih =>
    rw [writeBytes]
    by_cases ha : a < 4096
    · rw [writeByte_eq ha]
      simp only
      simp only [List.length_cons] at h
      rw [ih (by rintro rfl; simp at h; omega) (by omega)]
    · rw [writeByte_high (by omega)]

/-- Whatever a store of bytes answers, it is the copy of all of them. -/
theorem writeBytes_ok {s t : State} {a : Nat} {vs : List Byte} (h : writeBytes s a vs = .ok t) :
    t = s.setMem (s.mem.writeAll s.cfg.glyphs a vs) ∧ (vs = [] ∨ a + vs.length ≤ 4096) := by
  by_cases hv : vs = []
  · subst hv; cases h; exact ⟨rfl, .inl rfl⟩
  · by_cases hl : a + vs.length ≤ 4096
    · rw [writeBytes_eq (.inr hl)] at h; cases h; exact ⟨rfl, .inr hl⟩
    · rw [writeBytes_high hv (by omega)] at h; cases h

/-! ### The registers of a block store (41_load_store.md R123) -/

@[simp] theorem firstRegs_length (s : State) (vx : RegIx) : (s.firstRegs vx).length = vx.val + 1 := by
  simp [State.firstRegs]

theorem firstRegs_getElem? (s : State) {vx k : RegIx} (h : k ≤ vx) : (s.firstRegs vx)[k.val]? = some s.x[k] := by
  have : k.val < vx.val + 1 := Nat.lt_succ_of_le h
  simp [State.firstRegs, this]

/-! ### The fetch (20_memory.md R56) -/

theorem fetch_eq {s : State} (h : s.pc.toNat ≤ 4094) :
    fetch s = .ok (wordOfBytes (s.mem.read s.cfg.glyphs s.pc.toNat) (s.mem.read s.cfg.glyphs (s.pc.toNat + 1))) := by
  rw [fetch, readByte_eq (by omega), readByte_eq (by omega)]

theorem fetch_high {s : State} (h : 4095 ≤ s.pc.toNat) : fetch s = .error .memoryBoundsFault := by
  rw [fetch]
  by_cases hp : s.pc.toNat < 4096
  · rw [readByte_eq hp, readByte_high (by omega)]
  · rw [readByte_high (by omega)]

theorem fetch_ok_pc {s : State} {w : Word} (h : fetch s = .ok w) : s.pc.toNat ≤ 4094 := by
  by_contra hp
  rw [fetch_high (by omega)] at h
  cases h

/-! ### The call stack (10_state.md R30, R31) -/

theorem push_eq {s : State} {v : Word} (h : stackFull s.cfg.stackDepth s.stack.length = false) :
    push s v = .ok (s.setStack (v :: s.stack)) := by
  simp [push, h]

theorem push_ok {s t : State} {v : Word} (h : push s v = .ok t) :
    t = s.setStack (v :: s.stack) ∧ stackFull s.cfg.stackDepth s.stack.length = false := by
  unfold push at h
  split at h
  · cases h
  · next hf => cases h; exact ⟨rfl, by simpa using hf⟩

theorem pop_cons {s : State} {a : Word} {rest : List Word} (h : s.stack = a :: rest) :
    pop s = .ok (a, s.setStack rest) := by
  simp [pop, h]

theorem pop_nil {s : State} (h : s.stack = []) : pop s = .error .stackUnderflow := by
  simp [pop, h]

theorem pop_ok {s : State} {p : Word × State} (h : pop s = .ok p) :
    ∃ rest, s.stack = p.1 :: rest ∧ p.2 = s.setStack rest := by
  unfold pop at h
  split at h
  · cases h
  · next a rest hs => cases h; exact ⟨rest, hs, rfl⟩

/-! ### The end of a step (40_step_and_control_flow.md R103, R104) -/

/-- What `finish` can do: go on at the outcome's target, or the self-check's fault. -/
theorem finish_cases (o : PcOutcome) (s : State) :
    (stuck o s = false ∧ finish o s = .next (s.setPc (o.target s.pc))) ∨
    (stuck o s = true ∧ finish o s = .fault .stuckProgramCounter) := by
  unfold finish
  cases stuck o s <;> simp [raise]

theorem finish_next {o : PcOutcome} {s t : State} (h : finish o s = .next t) : t = s.setPc (o.target s.pc) := by
  rcases finish_cases o s with ⟨-, e⟩ | ⟨-, e⟩ <;> rw [e] at h <;> cases h
  rfl

theorem finish_fault {o : PcOutcome} {s : State} {k : Fault} (h : finish o s = .fault k) :
    k = .stuckProgramCounter ∧ stuck o s = true := by
  rcases finish_cases o s with ⟨-, e⟩ | ⟨hs, e⟩ <;> rw [e] at h <;> cases h
  exact ⟨rfl, hs⟩

theorem finish_not_refused {o : PcOutcome} {s : State} {r : Refusal} : finish o s ≠ .refused r := by
  rcases finish_cases o s with ⟨-, e⟩ | ⟨-, e⟩ <;> rw [e] <;> simp

theorem add_two_ne (p : Word) : p + 2 ≠ p := by bv_omega

theorem add_four_ne (p : Word) : p + 4 ≠ p := by bv_omega

@[simp] theorem finish_increment (s : State) : finish .increment s = .next (s.setPc (s.pc + 2)) := by
  simp [finish, stuck, PcOutcome.target]

@[simp] theorem finish_skipNext (s : State) : finish .skipNext s = .next (s.setPc (s.pc + 4)) := by
  simp [finish, stuck, PcOutcome.target]

@[simp] theorem finish_stay (s : State) : finish .stay s = .next s := by
  simp [finish, stuck, PcOutcome.target, State.setPc]

theorem finish_skipIf (c : Bool) (s : State) :
    finish (skipIf c) s = .next (s.setPc (if c then s.pc + 4 else s.pc + 2)) := by
  cases c <;> simp [skipIf]

theorem finish_jumpTo {a : Word} {s : State} (h : a ≠ s.pc ∨ s.cfg.stuckPcFatal = false) :
    finish (.jumpTo a) s = .next (s.setPc a) := by
  rcases h with h | h <;> simp [finish, stuck, PcOutcome.target, h]

theorem finish_jumpTo_self {s : State} (h : s.cfg.stuckPcFatal = true) :
    finish (.jumpTo s.pc) s = .fault .stuckProgramCounter := by
  simp [finish, stuck, PcOutcome.target, h, raise]

end Sys2Proof.Machine
end

