-- ==== Sys2Proof/Laws/Display.lean ====
section
/-! SUPPORT. The display buffer: what a pixel reads after a flip, after a sprite row and after a sprite. -/

namespace Sys2Proof.Machine

/-- Two linear positions reach the same pixel iff they agree modulo 2048 (46_display.md R166). -/
theorem same_pixel_iff (p q : Nat) : (rowOf p = rowOf q ∧ p % 64 = q % 64) ↔ p % 2048 = q % 2048 := by
  simp only [rowOf, Fin.ext_iff, Fin.val_ofNat]
  omega

theorem pixel_mod (fb : Display) (p : Nat) : pixel fb (p % 2048) = pixel fb p := by
  obtain ⟨h1, h2⟩ := (same_pixel_iff (p % 2048) p).2 (Nat.mod_mod p 2048)
  simp [pixel, h1, h2]

@[simp] theorem pixel_cleared (p : Nat) : pixel clearedDisplay p = false := by
  simp [pixel, clearedDisplay]

/-- A flip changes the pixel of its position where its bit is 1, and no other pixel (R167). -/
theorem pixel_xorPixel (fb : Display) (p q : Nat) (b : Bool) :
    pixel (xorPixel fb p b) q = if q % 2048 = p % 2048 then (pixel fb q ^^ b) else pixel fb q := by
  cases b with
  | false => simp [xorPixel]
  | true =>
    simp only [xorPixel, if_true, pixel, Fin.getElem_fin, Vector.getElem_set]
    have key := same_pixel_iff q p
    by_cases hr : rowOf q = rowOf p
    · simp only [hr, if_true, BitVec.getLsbD_xor, BitVec.getLsbD_shiftLeft, BitVec.getLsbD_one]
      by_cases hc : q % 64 = p % 64
      · simp [key.1 ⟨hr, hc⟩, hc, Nat.mod_lt]
      · have hne : ¬ q % 2048 = p % 2048 := fun h => hc (key.2 h).2
        have hlt : q % 64 < 64 := Nat.mod_lt _ (by decide)
        simp only [hne, if_false, hlt, decide_true, Bool.true_and]
        by_cases hlt2 : q % 64 < p % 64
        · simp [hlt2]
        · have : ¬ (q % 64 - p % 64 = 0) := by omega
          simp [hlt2, this]
    · have hne : ¬ q % 2048 = p % 2048 := fun h => hr (key.2 h).1
      have hr' : ¬ ((rowOf p).val = (rowOf q).val) := fun h => hr (Fin.ext h.symm)
      simp [hne, hr']

/-- The bit that a list of bits laid from position `p` on puts at linear position `q`: the first one that reaches it. -/
def bitAt : Nat → List Bool → Nat → Bool
  | _, [], _ => false
  | p, b :: bs, q => (decide (q % 2048 = p % 2048) && b) ^^ bitAt (p + 1) bs q

/-- After a row of bits, every pixel is its old value XOR the bit laid on it (R168). -/
theorem pixel_blitBits (bs : List Bool) (p q : Nat) (fb : Display) (c : Bool) :
    pixel (blitBits p bs (fb, c)).1 q = (pixel fb q ^^ bitAt p bs q) := by
  induction bs generalizing p fb c with
  | nil => simp [blitBits, bitAt]
  | cons b bs ih =>
    rw [blitBits, ih, pixel_xorPixel, bitAt]
    by_cases h : q % 2048 = p % 2048 <;> simp [h]

@[simp] theorem rowBits_length (r : Byte) : (rowBits r).length = 8 := by simp [rowBits]

/-- Bit `7 - b` of the sprite byte is the pixel `b` positions along (R167). -/
theorem rowBits_getElem (r : Byte) (b : Nat) (h : b < (rowBits r).length) : (rowBits r)[b] = r.getLsbD (7 - b) := by
  simp [rowBits]

/-- A blit faults iff some row's origin is off the display (R169). -/
theorem blitRows_ok_iff (x0 y : Nat) (rows : List Byte) (acc : Display × Bool) :
    (∃ r, blitRows x0 y rows acc = .ok r) ↔ rows = [] ∨ (x0 < 64 ∧ y + rows.length ≤ 32) := by
  induction rows generalizing y acc with
  | nil => simp [blitRows]
  | cons r rest ih =>
    rw [blitRows]
    by_cases h : x0 < 64 ∧ y < 32
    · simp only [displayWidth, displayHeight, h, and_self, if_true, ih, reduceCtorEq, false_or, List.length_cons,
        true_and]
      constructor
      · rintro (rfl | h')
        · simp; omega
        · omega
      · intro h'
        exact .inr (by omega)
    · simp only [displayWidth, displayHeight, h, if_false, reduceCtorEq, exists_false, false_or, List.length_cons,
        false_iff]
      omega

theorem blitRows_fault {x0 y : Nat} {rows : List Byte} {acc : Display × Bool} {k : Fault}
    (h : blitRows x0 y rows acc = .error k) : k = .displayRangeFault := by
  induction rows generalizing y acc with
  | nil => cases h
  | cons r rest ih =>
    rw [blitRows] at h
    split at h
    · exact ih h
    · cases h; rfl

end Sys2Proof.Machine
end

