-- ==== Sys2Proof/Laws/Operations.lean ====
section
/-! SUPPORT. The host's operations: what one of them does to an engine that runs and to one that is halted, and how a
sequence goes on. -/

namespace Sys2Proof.Machine

theorem apply_running {s : State} (h : s.halted = none) (op : Operation) : op.apply s = op.effect s := by
  simp only [Operation.apply, h]

theorem apply_halted {s : State} {k : Fault} (h : s.halted = some k) {op : Operation} (ho : op ≠ .reset) :
    op.apply s = .refused (.engineHalted k) := by
  cases op <;> first | exact absurd rfl ho | simp only [Operation.apply, h]

theorem apply_reset (s : State) : Operation.reset.apply s = .next (resetOf s) := by
  cases h : s.halted <;> simp only [Operation.apply, h, Operation.effect]

/-- Reset does not depend on what halted the engine. -/
theorem resetOf_haltWith (s : State) (k : Fault) : resetOf (s.haltWith k) = resetOf s := rfl

theorem run_nil_running {s : State} (h : s.halted = none) : Operation.run [] s = .next s := by
  simp only [Operation.run, h]

theorem run_cons_next {op : Operation} {s t : State} (h : op.apply s = .next t) (rest : List Operation) :
    Operation.run (op :: rest) s = Operation.run rest t := by
  simp only [Operation.run, h]

theorem run_cons_fault {op : Operation} {s : State} {k : Fault} (h : op.apply s = .fault k) (rest : List Operation) :
    Operation.run (op :: rest) s = Operation.run rest (s.haltWith k) := by
  simp only [Operation.run, h]

theorem run_cons_refused {op : Operation} {s : State} {r : Refusal} (h : op.apply s = .refused r)
    (rest : List Operation) : Operation.run (op :: rest) s = .refused r := by
  simp only [Operation.run, h]

/-- A sequence that answers a state from a halted engine begins with a Reset. -/
theorem run_halted_next {s t : State} {k : Fault} {ops : List Operation} (h : s.halted = some k)
    (hr : Operation.run ops s = .next t) : ∃ later, ops = .reset :: later ∧ Operation.run later (resetOf s) = .next t := by
  cases ops with
  | nil => simp [Operation.run, h, raise] at hr
  | cons op rest =>
    by_cases ho : op = .reset
    · subst ho
      rw [run_cons_next (apply_reset s)] at hr
      exact ⟨rest, rfl, hr⟩
    · rw [run_cons_refused (apply_halted h ho)] at hr
      cases hr

/-- What a step that goes on has done: fetched a word, decoded it, run it, and opened the next call's key set. -/
theorem step_next {s t : State} (h : step s = .next t) :
    s.halted = none ∧ ∃ w i u, fetch s = .ok w ∧ decodeWord w = some i ∧ exec i s = .next u ∧ t = u.nextCall := by
  unfold step at h
  split at h
  · cases h
  · next hh =>
    obtain ⟨w, hw, h⟩ := orRaise_next h
    split at h
    · cases h
    · next i hi =>
      split at h <;> cases h
      next u hu => exact ⟨hh, w, i, u, hw, hi, hu, rfl⟩

end Sys2Proof.Machine
end

