-- ==== Sys2Proof/Laws/PerInstr.lean ====
section
/-! SUPPORT. The family FindsItsRow: the word of every well-formed instruction is matched first by the instruction's own
row of the opcode table (30_encoding.md R74, R75, R78). -/

namespace Sys2Proof.Laws

/-- The first row that matches the instruction's word is the row of its name. -/
def FindsItsRow.Statement (i : Instr) : Prop :=
  i.wellFormed = true → (firstRow opcodeTable (encode i)).map (·.name) = some i.rowName

/-- The word has a known top nibble, and the rows of that nibble give the row's name. -/
theorem findsRow {w c : Word} {name : String} (h : w &&& 0xF000 = c)
    (hr : (firstRow (rowsOfOp c) w).map (·.name) = some name) : (firstRow opcodeTable w).map (·.name) = some name := by
  rw [firstRow_of_op h, hr]

theorem FindsItsRow.clearDisplay : FindsItsRow.Statement .clearDisplay := by
  intro _; rfl

theorem FindsItsRow.ret : FindsItsRow.Statement .ret := by
  intro _; rfl

theorem FindsItsRow.jump (nnn : Addr) : FindsItsRow.Statement (.jump nnn) := by
  intro _
  refine findsRow (c := 0x1000) (by simp [encode, and_or_right, placeNNN_and_op]) ?_
  simp [rowsOfOp, opcodeTable, opcodeRowsControl, opcodeRowsArith, opcodeRowsWide, opcodeRowsMisc, firstRow,
    Row.matchesWord, Format.mask, encode, and_or_right, placeNNN_and_op, Instr.rowName]

theorem FindsItsRow.call (nnn : Addr) : FindsItsRow.Statement (.call nnn) := by
  intro _
  refine findsRow (c := 0x2000) (by simp [encode, and_or_right, placeNNN_and_op]) ?_
  simp [rowsOfOp, opcodeTable, opcodeRowsControl, opcodeRowsArith, opcodeRowsWide, opcodeRowsMisc, firstRow,
    Row.matchesWord, Format.mask, encode, and_or_right, placeNNN_and_op, Instr.rowName]

theorem FindsItsRow.skipEqVxByte (vx : RegIx) (nn : Byte) : FindsItsRow.Statement (.skipEqVxByte vx nn) := by
  intro _
  refine findsRow (c := 0x3000) (by simp [encode, and_or_right, placeX_and_op, placeNN_and_op]) ?_
  simp [rowsOfOp, opcodeTable, opcodeRowsControl, opcodeRowsArith, opcodeRowsWide, opcodeRowsMisc, firstRow,
    Row.matchesWord, Format.mask, encode, and_or_right, placeX_and_op, placeNN_and_op, Instr.rowName]

theorem FindsItsRow.skipNeVxByte (vx : RegIx) (nn : Byte) : FindsItsRow.Statement (.skipNeVxByte vx nn) := by
  intro _
  refine findsRow (c := 0x4000) (by simp [encode, and_or_right, placeX_and_op, placeNN_and_op]) ?_
  simp [rowsOfOp, opcodeTable, opcodeRowsControl, opcodeRowsArith, opcodeRowsWide, opcodeRowsMisc, firstRow,
    Row.matchesWord, Format.mask, encode, and_or_right, placeX_and_op, placeNN_and_op, Instr.rowName]

theorem FindsItsRow.skipEqVxVy (vx : RegIx) (vy : RegIx) : FindsItsRow.Statement (.skipEqVxVy vx vy) := by
  intro _
  refine findsRow (c := 0x5000) (by simp [encode, and_or_right, placeX_and_op, placeY_and_op]) ?_
  simp [rowsOfOp, opcodeTable, opcodeRowsControl, opcodeRowsArith, opcodeRowsWide, opcodeRowsMisc, firstRow,
    Row.matchesWord, Format.mask, encode, and_or_right, placeX_and_xy, placeY_and_xy, Instr.rowName]

theorem FindsItsRow.loadVxByte (vx : RegIx) (nn : Byte) : FindsItsRow.Statement (.loadVxByte vx nn) := by
  intro _
  refine findsRow (c := 0x6000) (by simp [encode, and_or_right, placeX_and_op, placeNN_and_op]) ?_
  simp [rowsOfOp, opcodeTable, opcodeRowsControl, opcodeRowsArith, opcodeRowsWide, opcodeRowsMisc, firstRow,
    Row.matchesWord, Format.mask, encode, and_or_right, placeX_and_op, placeNN_and_op, Instr.rowName]

theorem FindsItsRow.addVxByte (vx : RegIx) (nn : Byte) : FindsItsRow.Statement (.addVxByte vx nn) := by
  intro _
  refine findsRow (c := 0x7000) (by simp [encode, and_or_right, placeX_and_op, placeNN_and_op]) ?_
  simp [rowsOfOp, opcodeTable, opcodeRowsControl, opcodeRowsArith, opcodeRowsWide, opcodeRowsMisc, firstRow,
    Row.matchesWord, Format.mask, encode, and_or_right, placeX_and_op, placeNN_and_op, Instr.rowName]

theorem FindsItsRow.loadVxVy (vx : RegIx) (vy : RegIx) : FindsItsRow.Statement (.loadVxVy vx vy) := by
  intro _
  refine findsRow (c := 0x8000) (by simp [encode, and_or_right, placeX_and_op, placeY_and_op]) ?_
  simp [rowsOfOp, opcodeTable, opcodeRowsControl, opcodeRowsArith, opcodeRowsWide, opcodeRowsMisc, firstRow,
    Row.matchesWord, Format.mask, encode, and_or_right, placeX_and_xy, placeY_and_xy, Instr.rowName]

theorem FindsItsRow.orVxVy (vx : RegIx) (vy : RegIx) : FindsItsRow.Statement (.orVxVy vx vy) := by
  intro _
  refine findsRow (c := 0x8000) (by simp [encode, and_or_right, placeX_and_op, placeY_and_op]) ?_
  simp [rowsOfOp, opcodeTable, opcodeRowsControl, opcodeRowsArith, opcodeRowsWide, opcodeRowsMisc, firstRow,
    Row.matchesWord, Format.mask, encode, and_or_right, placeX_and_xy, placeY_and_xy, Instr.rowName]

theorem FindsItsRow.andVxVy (vx : RegIx) (vy : RegIx) : FindsItsRow.Statement (.andVxVy vx vy) := by
  intro _
  refine findsRow (c := 0x8000) (by simp [encode, and_or_right, placeX_and_op, placeY_and_op]) ?_
  simp [rowsOfOp, opcodeTable, opcodeRowsControl, opcodeRowsArith, opcodeRowsWide, opcodeRowsMisc, firstRow,
    Row.matchesWord, Format.mask, encode, and_or_right, placeX_and_xy, placeY_and_xy, Instr.rowName]

theorem FindsItsRow.xorVxVy (vx : RegIx) (vy : RegIx) : FindsItsRow.Statement (.xorVxVy vx vy) := by
  intro _
  refine findsRow (c := 0x8000) (by simp [encode, and_or_right, placeX_and_op, placeY_and_op]) ?_
  simp [rowsOfOp, opcodeTable, opcodeRowsControl, opcodeRowsArith, opcodeRowsWide, opcodeRowsMisc, firstRow,
    Row.matchesWord, Format.mask, encode, and_or_right, placeX_and_xy, placeY_and_xy, Instr.rowName]

theorem FindsItsRow.addVxVy (vx : RegIx) (vy : RegIx) : FindsItsRow.Statement (.addVxVy vx vy) := by
  intro _
  refine findsRow (c := 0x8000) (by simp [encode, and_or_right, placeX_and_op, placeY_and_op]) ?_
  simp [rowsOfOp, opcodeTable, opcodeRowsControl, opcodeRowsArith, opcodeRowsWide, opcodeRowsMisc, firstRow,
    Row.matchesWord, Format.mask, encode, and_or_right, placeX_and_xy, placeY_and_xy, Instr.rowName]

theorem FindsItsRow.subVxVy (vx : RegIx) (vy : RegIx) : FindsItsRow.Statement (.subVxVy vx vy) := by
  intro _
  refine findsRow (c := 0x8000) (by simp [encode, and_or_right, placeX_and_op, placeY_and_op]) ?_
  simp [rowsOfOp, opcodeTable, opcodeRowsControl, opcodeRowsArith, opcodeRowsWide, opcodeRowsMisc, firstRow,
    Row.matchesWord, Format.mask, encode, and_or_right, placeX_and_xy, placeY_and_xy, Instr.rowName]

theorem FindsItsRow.shrVx (vx : RegIx) (vy : RegIx) : FindsItsRow.Statement (.shrVx vx vy) := by
  intro _
  refine findsRow (c := 0x8000) (by simp [encode, and_or_right, placeX_and_op, placeY_and_op]) ?_
  simp [rowsOfOp, opcodeTable, opcodeRowsControl, opcodeRowsArith, opcodeRowsWide, opcodeRowsMisc, firstRow,
    Row.matchesWord, Format.mask, encode, and_or_right, placeX_and_xy, placeY_and_xy, Instr.rowName]

theorem FindsItsRow.subnVxVy (vx : RegIx) (vy : RegIx) : FindsItsRow.Statement (.subnVxVy vx vy) := by
  intro _
  refine findsRow (c := 0x8000) (by simp [encode, and_or_right, placeX_and_op, placeY_and_op]) ?_
  simp [rowsOfOp, opcodeTable, opcodeRowsControl, opcodeRowsArith, opcodeRowsWide, opcodeRowsMisc, firstRow,
    Row.matchesWord, Format.mask, encode, and_or_right, placeX_and_xy, placeY_and_xy, Instr.rowName]

theorem FindsItsRow.shlVx (vx : RegIx) (vy : RegIx) : FindsItsRow.Statement (.shlVx vx vy) := by
  intro _
  refine findsRow (c := 0x8000) (by simp [encode, and_or_right, placeX_and_op, placeY_and_op]) ?_
  simp [rowsOfOp, opcodeTable, opcodeRowsControl, opcodeRowsArith, opcodeRowsWide, opcodeRowsMisc, firstRow,
    Row.matchesWord, Format.mask, encode, and_or_right, placeX_and_xy, placeY_and_xy, Instr.rowName]

theorem FindsItsRow.skipNeVxVy (vx : RegIx) (vy : RegIx) : FindsItsRow.Statement (.skipNeVxVy vx vy) := by
  intro _
  refine findsRow (c := 0x9000) (by simp [encode, and_or_right, placeX_and_op, placeY_and_op]) ?_
  simp [rowsOfOp, opcodeTable, opcodeRowsControl, opcodeRowsArith, opcodeRowsWide, opcodeRowsMisc, firstRow,
    Row.matchesWord, Format.mask, encode, and_or_right, placeX_and_xy, placeY_and_xy, Instr.rowName]

theorem FindsItsRow.loadI (nnn : Addr) : FindsItsRow.Statement (.loadI nnn) := by
  intro _
  refine findsRow (c := 0xA000) (by simp [encode, and_or_right, placeNNN_and_op]) ?_
  simp [rowsOfOp, opcodeTable, opcodeRowsControl, opcodeRowsArith, opcodeRowsWide, opcodeRowsMisc, firstRow,
    Row.matchesWord, Format.mask, encode, and_or_right, placeNNN_and_op, Instr.rowName]

theorem FindsItsRow.jumpV0 (nnn : Addr) : FindsItsRow.Statement (.jumpV0 nnn) := by
  intro _
  refine findsRow (c := 0xB000) (by simp [encode, and_or_right, placeNNN_and_op]) ?_
  simp [rowsOfOp, opcodeTable, opcodeRowsControl, opcodeRowsArith, opcodeRowsWide, opcodeRowsMisc, firstRow,
    Row.matchesWord, Format.mask, encode, and_or_right, placeNNN_and_op, Instr.rowName]

theorem FindsItsRow.rndVxByte (vx : RegIx) (nn : Byte) : FindsItsRow.Statement (.rndVxByte vx nn) := by
  intro _
  refine findsRow (c := 0xC000) (by simp [encode, and_or_right, placeX_and_op, placeNN_and_op]) ?_
  simp [rowsOfOp, opcodeTable, opcodeRowsControl, opcodeRowsArith, opcodeRowsWide, opcodeRowsMisc, firstRow,
    Row.matchesWord, Format.mask, encode, and_or_right, placeX_and_op, placeNN_and_op, Instr.rowName]

theorem FindsItsRow.displaySprite (vx : RegIx) (vy : RegIx) (n : Nat) : FindsItsRow.Statement (.displaySprite vx vy n) := by
  intro h
  have hn : n ≤ 15 := by simpa [Instr.wellFormed] using h
  refine findsRow (c := 0xD000) (by simp [encode, and_or_right, placeX_and_op, placeY_and_op, placeN_and_op hn]) ?_
  simp [rowsOfOp, opcodeTable, opcodeRowsControl, opcodeRowsArith, opcodeRowsWide, opcodeRowsMisc, firstRow,
    Row.matchesWord, Format.mask, encode, and_or_right, placeX_and_op, placeY_and_op, placeN_and_op hn, Instr.rowName]

theorem FindsItsRow.skipKeyPressed (vx : RegIx) : FindsItsRow.Statement (.skipKeyPressed vx) := by
  intro _
  refine findsRow (c := 0xE000) (by simp [encode, and_or_right, placeX_and_op]) ?_
  simp [rowsOfOp, opcodeTable, opcodeRowsControl, opcodeRowsArith, opcodeRowsWide, opcodeRowsMisc, firstRow,
    Row.matchesWord, Format.mask, encode, and_or_right, placeX_and_x, Instr.rowName]

theorem FindsItsRow.skipKeyNotPressed (vx : RegIx) : FindsItsRow.Statement (.skipKeyNotPressed vx) := by
  intro _
  refine findsRow (c := 0xE000) (by simp [encode, and_or_right, placeX_and_op]) ?_
  simp [rowsOfOp, opcodeTable, opcodeRowsControl, opcodeRowsArith, opcodeRowsWide, opcodeRowsMisc, firstRow,
    Row.matchesWord, Format.mask, encode, and_or_right, placeX_and_x, Instr.rowName]

theorem FindsItsRow.loadVxDt (vx : RegIx) : FindsItsRow.Statement (.loadVxDt vx) := by
  intro _
  refine findsRow (c := 0xF000) (by simp [encode, and_or_right, placeX_and_op]) ?_
  simp [rowsOfOp, opcodeTable, opcodeRowsControl, opcodeRowsArith, opcodeRowsWide, opcodeRowsMisc, firstRow,
    Row.matchesWord, Format.mask, encode, and_or_right, placeX_and_x, Instr.rowName]

theorem FindsItsRow.waitKey (vx : RegIx) : FindsItsRow.Statement (.waitKey vx) := by
  intro _
  refine findsRow (c := 0xF000) (by simp [encode, and_or_right, placeX_and_op]) ?_
  simp [rowsOfOp, opcodeTable, opcodeRowsControl, opcodeRowsArith, opcodeRowsWide, opcodeRowsMisc, firstRow,
    Row.matchesWord, Format.mask, encode, and_or_right, placeX_and_x, Instr.rowName]

theorem FindsItsRow.loadDtVx (vx : RegIx) : FindsItsRow.Statement (.loadDtVx vx) := by
  intro _
  refine findsRow (c := 0xF000) (by simp [encode, and_or_right, placeX_and_op]) ?_
  simp [rowsOfOp, opcodeTable, opcodeRowsControl, opcodeRowsArith, opcodeRowsWide, opcodeRowsMisc, firstRow,
    Row.matchesWord, Format.mask, encode, and_or_right, placeX_and_x, Instr.rowName]

theorem FindsItsRow.loadStVx (vx : RegIx) : FindsItsRow.Statement (.loadStVx vx) := by
  intro _
  refine findsRow (c := 0xF000) (by simp [encode, and_or_right, placeX_and_op]) ?_
  simp [rowsOfOp, opcodeTable, opcodeRowsControl, opcodeRowsArith, opcodeRowsWide, opcodeRowsMisc, firstRow,
    Row.matchesWord, Format.mask, encode, and_or_right, placeX_and_x, Instr.rowName]

theorem FindsItsRow.addIVx (vx : RegIx) : FindsItsRow.Statement (.addIVx vx) := by
  intro _
  refine findsRow (c := 0xF000) (by simp [encode, and_or_right, placeX_and_op]) ?_
  simp [rowsOfOp, opcodeTable, opcodeRowsControl, opcodeRowsArith, opcodeRowsWide, opcodeRowsMisc, firstRow,
    Row.matchesWord, Format.mask, encode, and_or_right, placeX_and_x, Instr.rowName]

theorem FindsItsRow.loadFontVx (vx : RegIx) : FindsItsRow.Statement (.loadFontVx vx) := by
  intro _
  refine findsRow (c := 0xF000) (by simp [encode, and_or_right, placeX_and_op]) ?_
  simp [rowsOfOp, opcodeTable, opcodeRowsControl, opcodeRowsArith, opcodeRowsWide, opcodeRowsMisc, firstRow,
    Row.matchesWord, Format.mask, encode, and_or_right, placeX_and_x, Instr.rowName]

theorem FindsItsRow.storeBcd (vx : RegIx) : FindsItsRow.Statement (.storeBcd vx) := by
  intro _
  refine findsRow (c := 0xF000) (by simp [encode, and_or_right, placeX_and_op]) ?_
  simp [rowsOfOp, opcodeTable, opcodeRowsControl, opcodeRowsArith, opcodeRowsWide, opcodeRowsMisc, firstRow,
    Row.matchesWord, Format.mask, encode, and_or_right, placeX_and_x, Instr.rowName]

theorem FindsItsRow.storeRegs (vx : RegIx) : FindsItsRow.Statement (.storeRegs vx) := by
  intro _
  refine findsRow (c := 0xF000) (by simp [encode, and_or_right, placeX_and_op]) ?_
  simp [rowsOfOp, opcodeTable, opcodeRowsControl, opcodeRowsArith, opcodeRowsWide, opcodeRowsMisc, firstRow,
    Row.matchesWord, Format.mask, encode, and_or_right, placeX_and_x, Instr.rowName]

theorem FindsItsRow.loadRegs (vx : RegIx) : FindsItsRow.Statement (.loadRegs vx) := by
  intro _
  refine findsRow (c := 0xF000) (by simp [encode, and_or_right, placeX_and_op]) ?_
  simp [rowsOfOp, opcodeTable, opcodeRowsControl, opcodeRowsArith, opcodeRowsWide, opcodeRowsMisc, firstRow,
    Row.matchesWord, Format.mask, encode, and_or_right, placeX_and_x, Instr.rowName]

end Sys2Proof.Laws
end

