-- ==== Sys2Proof/Tests/Slice0.lean ====
section
/-! SUPPORT. The model's own tests. Expected results are the spec's: the worked examples and derived vectors of
95_test_vectors.md (S1 to S12, sections 2.1 to 2.10), and the examples of the instructions' rules. -/

namespace Sys2Proof.Tests

open Sys2Proof.Machine

/-- One step from `s` with the word `w` placed at `pc`. -/
def go (w : Nat) (s : State) : Result := step (s.withFetchWord 16 w)

/-- A value of the next state, or none where there is none. -/
def see {α : Type} (r : Result) (f : State → α) : Option α :=
  match r with
  | .next t => some (f t)
  | .fault _ => none
  | .refused _ => none

/-- The fault a result is. -/
def faultOf (r : Result) : Option Fault :=
  match r with
  | .next _ => none
  | .fault k => some k
  | .refused _ => none

/-- The state after reset with registers written. -/
def withRegs (rs : List (RegIx × Byte)) : State := rs.foldl (fun s p => s.setReg p.1 p.2) State.reset

/-- A state with bytes stored from an address on. -/
def withMem (s : State) (a : Nat) (bs : List Byte) : State := s.setMem (s.mem.writeAll s.cfg.glyphs a bs)

/-- A state with pixels flipped. -/
def withPixels (s : State) (ps : List Nat) : State := s.setFb (ps.foldl (fun fb p => xorPixel fb p true) s.fb)

/-- The set pixels among a list of linear indices. -/
def litAmong (s : State) (ps : List Nat) : List Nat := ps.filter (pixel s.fb)

/-! ## Well-formedness -/

theorem test_wf_row_count_in_range : (Instr.displaySprite 15 15 15).wellFormed = true := by decide
theorem test_wf_row_count_too_large : (Instr.displaySprite 0 0 16).wellFormed = false := by decide

/-! ## Decoding: every constructor, by a word written out from the encoding column of R78 -/

theorem test_decode_clearDisplay : decodeWord 0b0000000011100000 = some .clearDisplay := by decide
theorem test_decode_ret : decodeWord 0b0000000011101110 = some .ret := by decide
theorem test_decode_jump : decodeWord 0b0001000100100011 = some (.jump 0x123) := by decide
theorem test_decode_call : decodeWord 0b0010101010111100 = some (.call 0xABC) := by decide
theorem test_decode_skipEqVxByte : decodeWord 0b0011111100000000 = some (.skipEqVxByte 15 0) := by decide
theorem test_decode_skipNeVxByte : decodeWord 0b0100001000010001 = some (.skipNeVxByte 2 0x11) := by decide
theorem test_decode_skipEqVxVy : decodeWord 0b0101001101000000 = some (.skipEqVxVy 3 4) := by decide
theorem test_decode_loadVxByte : decodeWord 0b0110101011001100 = some (.loadVxByte 0xA 0xCC) := by decide
theorem test_decode_addVxByte : decodeWord 0b0111001000010000 = some (.addVxByte 2 0x10) := by decide
theorem test_decode_loadVxVy : decodeWord 0b1000101010110000 = some (.loadVxVy 10 11) := by decide
theorem test_decode_orVxVy : decodeWord 0b1000101010110001 = some (.orVxVy 10 11) := by decide
theorem test_decode_andVxVy : decodeWord 0b1000101010110010 = some (.andVxVy 10 11) := by decide
theorem test_decode_xorVxVy : decodeWord 0b1000101010110011 = some (.xorVxVy 10 11) := by decide
theorem test_decode_addVxVy : decodeWord 0b1000101010110100 = some (.addVxVy 10 11) := by decide
theorem test_decode_subVxVy : decodeWord 0b1000101010110101 = some (.subVxVy 10 11) := by decide
theorem test_decode_shrVx : decodeWord 0b1000101010110110 = some (.shrVx 10 11) := by decide
theorem test_decode_subnVxVy : decodeWord 0b1000101010110111 = some (.subnVxVy 10 11) := by decide
theorem test_decode_shlVx : decodeWord 0b1000101010111110 = some (.shlVx 10 11) := by decide
theorem test_decode_skipNeVxVy : decodeWord 0b1001001101000000 = some (.skipNeVxVy 3 4) := by decide
theorem test_decode_loadI : decodeWord 0b1010000100100011 = some (.loadI 0x123) := by decide
theorem test_decode_jumpV0 : decodeWord 0b1011000100100011 = some (.jumpV0 0x123) := by decide
theorem test_decode_rndVxByte : decodeWord 0b1100011111110000 = some (.rndVxByte 7 0xF0) := by decide
theorem test_decode_displaySprite : decodeWord 0b1101101010111100 = some (.displaySprite 0xA 0xB 0xC) := by decide
theorem test_decode_skipKeyPressed : decodeWord 0b1110001110011110 = some (.skipKeyPressed 3) := by decide
theorem test_decode_skipKeyNotPressed : decodeWord 0b1110001110100001 = some (.skipKeyNotPressed 3) := by decide
theorem test_decode_loadVxDt : decodeWord 0b1111000100000111 = some (.loadVxDt 1) := by decide
theorem test_decode_waitKey : decodeWord 0b1111000100001010 = some (.waitKey 1) := by decide
theorem test_decode_loadDtVx : decodeWord 0b1111000100010101 = some (.loadDtVx 1) := by decide
theorem test_decode_loadStVx : decodeWord 0b1111000100011000 = some (.loadStVx 1) := by decide
theorem test_decode_addIVx : decodeWord 0b1111000100011110 = some (.addIVx 1) := by decide
theorem test_decode_loadFontVx : decodeWord 0b1111000100101001 = some (.loadFontVx 1) := by decide
theorem test_decode_storeBcd : decodeWord 0b1111000100110011 = some (.storeBcd 1) := by decide
theorem test_decode_storeRegs : decodeWord 0b1111000101010101 = some (.storeRegs 1) := by decide
theorem test_decode_loadRegs : decodeWord 0b1111000101100101 = some (.loadRegs 1) := by decide

/-- Section 2.1: words that are no instruction. -/
theorem test_decode_unrecognized :
    [0xF00D, 0x00E1, 0x0000, 0x0123, 0x0FFF, 0x5341, 0x534F, 0x8AB8, 0x8AB9, 0x8ABA, 0x8ABB, 0x8ABC, 0x8ABD, 0x8ABF,
      0x9341, 0xE000, 0xE39F, 0xE3A0, 0xF100, 0xF10D, 0xF156, 0xF1FF].all (fun w => (decodeWord w).isNone) = true := by
  decide

theorem test_decode_bytes_big_endian :
    (decode [0x6A, 0xCC, 0x01]).toOption = some (.loadVxByte 0xA 0xCC, [0x01]) := by decide
theorem test_decode_truncated : (decode [0x6A]).toOption = none := by decide
theorem test_decodeTableWord : decodeTableWord 16 0xDABC = some (.displaySprite 0xA 0xB 0xC) := by decide
theorem test_encode_source_words :
    [encode .clearDisplay, encode (.jump 0x123), encode (.loadVxByte 0xA 0xCC), encode (.displaySprite 0xA 0xB 0xC)]
      = [0x00E0, 0x1123, 0x6ACC, 0xDABC] := by decide

/-! ## Control flow (section 2.2) -/

theorem test_call : see (go 0x2210 (State.reset.setPc 0x208)) (fun t => (t.stack, t.pc)) = some ([0x20A], 0x210) := by
  decide
theorem test_call_stack_overflow :
    faultOf (go 0x2500 { State.reset with
      pc := 0x400, stack := [0x302, 0x202], cfg := { standardConfig with stackDepth := some 2 } })
      = some .stackOverflow := by decide
theorem test_return :
    see (go 0x00EE ((State.reset.setPc 0x214).setStack [0x20A])) (fun t => (t.stack, t.pc)) = some ([], 0x20A) := by
  decide
theorem test_return_underflow : faultOf (go 0x00EE State.reset) = some .stackUnderflow := by decide
theorem test_jump_to_self_fatal : faultOf (go 0x1200 State.reset) = some .stuckProgramCounter := by decide
theorem test_jump_to_self_allowed :
    see (go 0x1200 { State.reset with cfg := { standardConfig with stuckPcFatal := false } }) (·.pc) = some 0x200 := by
  decide
theorem test_jumpV0_past_memory : see (go 0xBFFF (withRegs [(0, 0xFF)])) (·.pc) = some 0x10FE := by decide
theorem test_jumpV0 : see (go 0xB300 (withRegs [(0, 0x04)])) (·.pc) = some 0x304 := by decide
theorem test_skipEqVxByte_taken : see (go 0x3100 (State.reset.setPc 0x208)) (·.pc) = some 0x20C := by decide
theorem test_skipEqVxByte_not_taken : see (go 0x3100 ((withRegs [(1, 4)]).setPc 0x208)) (·.pc) = some 0x20A := by decide
theorem test_skipNeVxByte_taken : see (go 0x4211 ((withRegs [(2, 0x10)]).setPc 0x300)) (·.pc) = some 0x304 := by decide
theorem test_skipNeVxByte_not_taken :
    see (go 0x4210 ((withRegs [(2, 0x10)]).setPc 0x300)) (·.pc) = some 0x302 := by decide
theorem test_skipEqVxVy_taken :
    see (go 0x5340 ((withRegs [(3, 0x7F), (4, 0x7F)]).setPc 0x240)) (·.pc) = some 0x244 := by decide
theorem test_skipEqVxVy_not_taken :
    see (go 0x5340 ((withRegs [(3, 0x7F), (4, 0x80)]).setPc 0x240)) (·.pc) = some 0x242 := by decide
theorem test_skipNeVxVy_taken :
    see (go 0x9340 ((withRegs [(3, 0x7F), (4, 0x80)]).setPc 0x240)) (·.pc) = some 0x244 := by decide
theorem test_skipNeVxVy_same_register : see (go 0x9330 (State.reset.setPc 0x240)) (·.pc) = some 0x242 := by decide

/-! ## Load and store (section 2.3) -/

theorem test_loadVxByte_into_flag : see (go 0x6F55 (withRegs [(15, 1)])) (·.reg 15) = some 0x55 := by decide
theorem test_loadVxVy : see (go 0x8120 (withRegs [(2, 0x5A)])) (fun t => (t.reg 1, t.reg 2)) = some (0x5A, 0x5A) := by
  decide
theorem test_loadI : see (go 0xAFFF State.reset) (·.I) = some 0x0FFF := by decide
theorem test_storeBcd :
    see (go 0xF033 ((withRegs [(0, 254)]).setI 4093))
      (fun t => ((List.range 3).map fun k => t.mem.read t.cfg.glyphs (4093 + k), t.I)) = some ([2, 5, 4], 4093) := by
  decide
theorem test_storeBcd_fault : faultOf (go 0xF033 ((withRegs [(0, 254)]).setI 4094)) = some .memoryBoundsFault := by
  decide
theorem test_storeRegs_all :
    see (go 0xFF55 ((withRegs [(0, 1), (15, 0xEE)]).setI 4080))
      (fun t => (t.mem.read t.cfg.glyphs 4080, t.mem.read t.cfg.glyphs 4094, t.mem.read t.cfg.glyphs 4095, t.I))
      = some (1, 0, 0xEE, 4080) := by decide
theorem test_storeRegs_fault : faultOf (go 0xFF55 (State.reset.setI 4081)) = some .memoryBoundsFault := by decide
theorem test_loadRegs_glyph :
    see (go 0xF465 ((withRegs [(5, 7)]).setI 50)) (fun t => ([0, 1, 2, 3, 4, 5].map t.reg, t.I))
      = some ([0xF0, 0x90, 0xF0, 0x90, 0x90, 7], 50) := by decide
theorem test_loadRegs_fault : faultOf (go 0xF165 (State.reset.setI 0x0FFF)) = some .memoryBoundsFault := by decide
theorem test_loadFontVx : see (go 0xF029 (withRegs [(0, 0xFF)])) (·.I) = some 0x04FB := by decide

/-! ## Timers (section 2.4) -/

theorem test_loadVxDt : see (go 0xF507 (State.reset.setDT 0x3C)) (fun t => (t.reg 5, t.DT)) = some (0x3C, 0x3C) := by
  decide
theorem test_loadDtVx : see (go 0xF515 (withRegs [(5, 0x3C)])) (·.DT) = some 0x3C := by decide
theorem test_loadStVx : see (go 0xF618 (withRegs [(6, 2)])) (·.ST) = some 2 := by decide
theorem test_tick_floors_each_timer :
    ((tickTimers ((State.reset.setDT 0xFF).setST 1)).DT, (tickTimers ((State.reset.setDT 0xFF).setST 1)).ST)
      = (0xFE, 0) := by decide
theorem test_tick_at_zero : (tickTimers State.reset).DT = 0 := by decide

/-! ## Arithmetic (section 2.5) -/

theorem test_addVxByte_no_flag :
    see (go 0x7001 (withRegs [(0, 0xFF), (15, 5)])) (fun t => (t.reg 0, t.reg 15)) = some (0, 5) := by decide
theorem test_addVxVy_carry :
    see (go 0x8014 (withRegs [(0, 0xFF), (1, 1)])) (fun t => (t.reg 0, t.reg 15)) = some (0, 1) := by decide
theorem test_addVxVy_into_flag :
    see (go 0x8F14 (withRegs [(15, 0x90), (1, 0x90)])) (·.reg 15) = some 0x20 := by decide
theorem test_subVxVy_borrow :
    see (go 0x8015 (withRegs [(0, 5), (1, 0x0A)])) (fun t => (t.reg 0, t.reg 15)) = some (0xFB, 0) := by decide
theorem test_subVxVy_equal :
    see (go 0x8015 (withRegs [(0, 7), (1, 7), (15, 1)])) (fun t => (t.reg 0, t.reg 15)) = some (0, 0) := by decide
theorem test_subnVxVy_no_borrow :
    see (go 0x8127 (withRegs [(1, 5), (2, 0x0A)])) (fun t => (t.reg 1, t.reg 15)) = some (5, 1) := by decide
theorem test_subnVxVy_borrow :
    see (go 0x8127 (withRegs [(1, 0x0A), (2, 5)])) (fun t => (t.reg 1, t.reg 15)) = some (0xFB, 0) := by decide
theorem test_addIVx_past_memory :
    see (go 0xF01E ((withRegs [(0, 1), (15, 7)]).setI 0x0FFF)) (fun t => (t.I, t.reg 15)) = some (0x1000, 7) := by decide
theorem test_addIVx_wraps : see (go 0xF01E ((withRegs [(0, 0xFF)]).setI 0xFF80)) (·.I) = some 0x007F := by decide

/-! ## Bit operations (section 2.6) -/

theorem test_orVxVy :
    see (go 0x8121 (withRegs [(1, 0xF0), (2, 0x3C), (15, 9)])) (fun t => (t.reg 1, t.reg 15)) = some (0xFC, 9) := by
  decide
theorem test_andVxVy :
    see (go 0x8122 (withRegs [(1, 0xF0), (2, 0x3C), (15, 9)])) (fun t => (t.reg 1, t.reg 15)) = some (0x30, 9) := by
  decide
theorem test_xorVxVy :
    see (go 0x8123 (withRegs [(1, 0xF0), (2, 0x3C), (15, 9)])) (fun t => (t.reg 1, t.reg 15)) = some (0xCC, 9) := by
  decide
theorem test_shrVx_ignores_vy :
    see (go 0x8276 (withRegs [(2, 4), (7, 0xFF)])) (fun t => (t.reg 2, t.reg 7, t.reg 15)) = some (2, 0xFF, 0) := by
  decide
theorem test_shrVx_low_bit : see (go 0x8236 (withRegs [(2, 0xFF)])) (fun t => (t.reg 2, t.reg 15)) = some (0x7F, 1) := by
  decide
theorem test_shlVx_normalized :
    see (go 0x820E (withRegs [(2, 0xFB)])) (fun t => (t.reg 2, t.reg 15)) = some (0xF6, 1) := by decide
theorem test_shlVx_raw :
    see (go 0x820E { withRegs [(2, 0xFB)] with cfg := { standardConfig with shiftFlag := .raw } })
      (fun t => (t.reg 2, t.reg 15)) = some (0xF6, 0x80) := by decide

/-! ## Random (section 2.7) -/

theorem test_rndVxByte : see (go 0xC30F { State.reset with rnd := some 0xA7 }) (·.reg 3) = some 7 := by decide
theorem test_draw_not_read : see (go 0x6301 { State.reset with rnd := some 0xFF }) (fun t => (t.reg 3, t.rnd))
    = some (1, some 0xFF) := by decide

/-! ## Display (section 2.8) -/

theorem test_clearDisplay :
    see (go 0x00E0 (withPixels (withRegs [(15, 1)]) [0, 5, 2047])) (fun t => (litAmong t [0, 5, 2047], t.reg 15))
      = some ([], 1) := by decide
theorem test_displaySprite_linear_wrap :
    see (go 0xD011 (withMem ((withRegs [(0, 60), (1, 31)]).setI 0x300) 0x300 [0xFF]))
      (fun t => (litAmong t [2043, 2044, 2045, 2046, 2047, 0, 1, 2, 3, 4, 1984], t.reg 15))
      = some ([2044, 2045, 2046, 2047, 0, 1, 2, 3], 0) := by decide
theorem test_displaySprite_collision :
    see (go 0xD001 (withPixels (withMem (State.reset.setI 0x300) 0x300 [0xC0]) [1]))
      (fun t => (litAmong t [0, 1, 2], t.reg 15)) = some ([0], 1) := by decide
theorem test_displaySprite_range_fault :
    faultOf (go 0xD013 (withMem ((withRegs [(1, 30)]).setI 0x300) 0x300 [0xFF, 0xFF, 0xFF]))
      = some .displayRangeFault := by decide
theorem test_displaySprite_memory_fault_first :
    faultOf (go 0xD012 ((withRegs [(0, 200)]).setI 4095)) = some .memoryBoundsFault := by decide
theorem test_displaySprite_no_rows :
    see (go 0xD010 ((withRegs [(0, 200), (1, 200), (15, 1)]).setI 0xFFFF)) (·.reg 15) = some 0 := by decide

/-! ## Keys (section 2.9) -/

theorem test_skipKeyPressed :
    see (go 0xE39E { (withRegs [(3, 2)]).setPc 0x202 with keys := some 4 }) (·.pc) = some 0x206 := by decide
theorem test_skipKeyPressed_no_such_key :
    see (go 0xE39E { (withRegs [(3, 0x12)]).setPc 0x202 with keys := some 0xFFFF }) (·.pc) = some 0x204 := by decide
theorem test_skipKeyNotPressed :
    see (go 0xE3A1 { (withRegs [(3, 2)]).setPc 0x202 with keys := some 0x80 }) (·.pc) = some 0x206 := by decide
theorem test_waitKey_stays :
    see (go 0xF30A { withRegs [(3, 9)] with keys := some 0 }) (fun t => (t.reg 3, t.pc)) = some (9, 0x200) := by decide
theorem test_waitKey_lowest :
    see (go 0xF30A { State.reset with keys := some 0x84 }) (fun t => (t.reg 3, t.pc)) = some (2, 0x202) := by decide
theorem test_waitKey_highest :
    see (go 0xF30A { State.reset with keys := some 0x8000 }) (·.reg 3) = some 15 := by decide

/-! ## The step and the host's operations (sections 2.2 and 2.10) -/

theorem test_fetch_fault_at_4095 : faultOf (step (State.reset.setPc 0x0FFF)) = some .memoryBoundsFault := by decide
theorem test_step_unrecognized : faultOf (step State.reset) = some .unrecognizedOpcode := by decide
theorem test_odd_address_executes :
    see (step (withMem (State.reset.setPc 0x201) 0x201 [0x6A, 0x12])) (fun t => (t.reg 10, t.pc))
      = some (0x12, 0x203) := by decide
theorem test_last_word_executes : see (go 0x6000 (State.reset.setPc 0x0FFE)) (·.pc) = some 0x1000 := by decide
theorem test_glyph_area_is_writable : see (load State.reset 0 [0xAA]) (·.mem.read standardGlyphs 0) = some 0xAA := by
  decide
theorem test_load_past_memory : faultOf (load State.reset 4095 [1, 2]) = some .memoryBoundsFault := by decide
theorem test_load_empty_at_end : see (load State.reset 4096 []) (·.mem) = some [] := by decide
theorem test_load_to_the_last_byte : see (load State.reset 4094 [1, 2]) (·.mem) = some [(4094, 1), (4095, 2)] := by
  decide
theorem test_written_reset_byte_is_not_listed :
    (Memory.write standardGlyphs (Memory.write standardGlyphs [] 5 1) 5 0x20) = [] := by decide
theorem test_halted_engine_refuses : (Operation.tickTimers.apply (State.reset.haltWith .stackUnderflow) matches
    .refused (.engineHalted .stackUnderflow)) = true := by decide

/-- S10: Call then Return. -/
theorem test_call_then_return :
    see (Operation.run [.load 0x208 [0x22, 0x10], .load 0x210 [0x00, 0xEE], .step 0 0, .step 0 0]
      (State.reset.setPc 0x208)) (fun t => (t.pc, t.stack)) = some (0x20A, []) := by decide

/-- D30: the host can tell a blocked WaitKey from a jump to self that the policy allows. -/
theorem test_stay_is_visible :
    (stepStays (State.withFetchWord State.reset 16 0xF30A),
      stepStays (State.withFetchWord { State.reset with cfg := { standardConfig with stuckPcFatal := false } } 16 0x1200))
      = (true, false) := by decide

/-- S11 and P5: a blocked WaitKey across a tick, then a key. -/
theorem test_wait_then_key :
    see (Operation.run [.load 0x200 [0xF3, 0x0A], .step 0 0, .tickTimers, .step 0x84 0] (State.reset.setDT 5))
      (fun t => (t.pc, t.reg 3, t.DT)) = some (0x202, 2, 4) := by decide

/-- After a fault only Reset leads on. -/
theorem test_reset_after_fault :
    see (Operation.run [.step 0 0, .reset] State.reset) (fun t => (t.pc, t.halted)) = some (0x200, none) := by decide
theorem test_no_step_after_fault :
    (Operation.run [.step 0 0, .step 0 0] State.reset matches .refused (.engineHalted .unrecognizedOpcode)) = true := by
  decide

/-! ## Witnesses: for each statement of Obligations.lean that has hypotheses, a state and operands that meet them together,
clause by clause at a boundary of the clause -/

open Sys2Proof.Claims

theorem witness_DecodeOfEncodedInstructionGivesItBack : (Instr.displaySprite 15 15 15).wellFormed = true := by decide
theorem witness_EncodeOfDecodedWordGivesItBack : decodeWord 0x8AB6 = some (.shrVx 10 11) := by decide
theorem witness_ByteAccessIsBoundsCheckedAndExact : (4095 : Nat) < 4096 ∧ (4096 : Nat) ≤ 4096 := by decide
theorem witness_LoadCopiesWholeRangeOrFaults :
    State.reset.halted = none ∧ 4094 + ([1, 2] : List Byte).length ≤ 4096 ∧
      4096 < 4095 + ([1, 2] : List Byte).length := by decide
theorem witness_FetchIsBigEndianOrFaults :
    (State.reset.setPc 4094).pc.toNat ≤ 4094 ∧ 4095 ≤ (State.reset.setPc 4095).pc.toNat := by decide
theorem witness_StoreIsSeenByTheNextFetch :
    effAddr ((State.reset.setPc 0x300).setI 0x301) (2 : RegIx).val < 4096 ∧ (1 : RegIx).val + 1 = (2 : RegIx).val ∧
      (2 : RegIx) ≤ 2 ∧ effAddr ((State.reset.setPc 0x300).setI 0x301) (1 : RegIx).val
        = ((State.reset.setPc 0x300).setI 0x301).pc.toNat + 2 := by decide

/-- The state after reset with LoadVxByte(10, 0xCC) at the last address a fetch can read. -/
def atLastWord : State := withMem (State.reset.setPc 0x0FFE) 0x0FFE [0x6A, 0xCC]

theorem witness_StepRunsTheDecodedInstruction :
    atLastWord.halted = none ∧ (readByte atLastWord atLastWord.pc.toNat).toOption = some 0x6A ∧
      (readByte atLastWord (atLastWord.pc.toNat + 1)).toOption = some 0xCC ∧
      (decode [0x6A, 0xCC]).toOption = some (.loadVxByte 10 0xCC, []) := by decide
theorem witness_StepIsFatalWithoutAnInstruction :
    (State.reset.setPc 4095).halted = none ∧ 4095 ≤ (State.reset.setPc 4095).pc.toNat ∧ State.reset.halted = none ∧
      (readByte State.reset State.reset.pc.toNat).toOption = some 0 ∧
      (readByte State.reset (State.reset.pc.toNat + 1)).toOption = some 0 ∧ decodeWord (wordOfBytes 0 0) = none := by
  decide
theorem witness_HostStepIsStepWithItsArguments : State.reset.halted = none := by decide
theorem witness_PlacedWordIsFetched : (State.reset.setPc 4094).pc.toNat ≤ 4094 := by decide

/-- The state after reset with a self-check that is not fatal. -/
def lenient : State := { State.reset with cfg := { standardConfig with stuckPcFatal := false } }

theorem witness_JumpsGoToTheirTargets :
    (0xFFF : Addr).toNat ≠ State.reset.pc.toNat ∧ lenient.cfg.stuckPcFatal = false ∧
      (0x200 : Addr).toNat = State.reset.pc.toNat ∧ State.reset.cfg.stuckPcFatal = true ∧
      (0x101 : Addr).toNat + (withRegs [(0, 0xFF)]).x[0].toNat = (withRegs [(0, 0xFF)]).pc.toNat := by decide

/-- The state after reset with a call stack of capacity 2 that holds `st`. -/
def depthTwo (st : List Word) : State :=
  { State.reset with cfg := { standardConfig with stackDepth := some 2 }, stack := st }

theorem witness_CallPushesTheReturnAddress :
    (depthTwo [0x300]).cfg.stackDepth = some 2 ∧ (depthTwo [0x300]).stack.length < 2 ∧
      (0x210 : Addr).toNat ≠ (depthTwo [0x300]).pc.toNat ∧ (0x200 : Addr).toNat = (depthTwo [0x300]).pc.toNat ∧
      (depthTwo [0x300]).cfg.stuckPcFatal = true ∧ (depthTwo [0x300, 0x302]).cfg.stackDepth = some 2 ∧
      2 ≤ (depthTwo [0x300, 0x302]).stack.length := by decide
theorem witness_ReturnPopsTheReturnAddress :
    (depthTwo [0x300]).stack = 0x300 :: [] ∧ (0x300 : Word) ≠ (depthTwo [0x300]).pc ∧
      (depthTwo [0x200]).stack = 0x200 :: [] ∧ (0x200 : Word) = (depthTwo [0x200]).pc ∧
      (depthTwo [0x200]).cfg.stuckPcFatal = true ∧ (depthTwo []).stack = [] := by decide
theorem witness_CallThenReturnComesBack :
    (depthTwo [0x300]).cfg.stackDepth = some 2 ∧ (depthTwo [0x300]).stack.length < 2 ∧
      (0x204 : Addr).toNat ≠ (depthTwo [0x300]).pc.toNat ∧
      (0x204 : Addr).toNat ≠ ((depthTwo [0x300]).pc + 2).toNat := by decide
theorem witness_StoreRegsStoresTheFirstRegisters : effAddr (State.reset.setI 4080) (15 : RegIx).val < 4096 := by decide
theorem witness_LoadRegsLoadsTheFirstRegisters : effAddr (State.reset.setI 4095) (0 : RegIx).val < 4096 := by decide
theorem witness_StoreBcdStoresTheDigits : effAddr (State.reset.setI 4093) 2 < 4096 := by decide
theorem witness_TransfersFaultExactlyOutsideMemory :
    4096 ≤ (State.reset.setI 4081).I.toNat + (15 : RegIx).val ∧ 4096 ≤ (State.reset.setI 4094).I.toNat + 2 := by decide
theorem witness_TickCountsEachTimerDown : (State.reset.setDT 0xFF).halted = none := by decide
theorem witness_TicksCommuteWithOtherInstructions :
    ∀ vx, Instr.addIVx 3 ≠ .loadVxDt vx ∧ Instr.addIVx 3 ≠ .loadDtVx vx ∧ Instr.addIVx 3 ≠ .loadStVx vx := by decide
theorem witness_ShiftLeftMovesTheHighBitToTheFlag :
    State.reset.cfg.shiftFlag = .normalized ∧
      (State.resetWith { standardConfig with shiftFlag := .raw }).cfg.shiftFlag = .raw := by decide
theorem witness_RndMasksTheDraw : { State.reset with rnd := some 0xA7 }.rnd = some 0xA7 := by decide
theorem witness_DrawsAreReadOnlyByRnd : ∀ vx nn, Instr.loadRegs 15 ≠ .rndVxByte vx nn := by simp

/-- A state whose `x[0]` and `x[1]` are `x` and `y`, with a set pixel row of a sprite at the index register. -/
def spriteState (x y : Byte) (i : Word) : State :=
  withMem ((withRegs [(0, x), (1, y)]).setI i) 4094 [0x81, 0xFF]

theorem witness_DisplaySpriteXorsAndReportsCollision :
    (effAddr (spriteState 63 30 4094) 2 ≤ 4096 ∧ (spriteState 63 30 4094).x[(0 : RegIx)].toNat < 64 ∧
      (spriteState 63 30 4094).x[(1 : RegIx)].toNat + 2 ≤ 32) := by decide
theorem witness_DisplaySpriteFaultsInOrder :
    4096 ≤ (spriteState 0 0 4095).I.toNat + 2 - 1 ∧ (spriteState 64 0 4094).I.toNat + 2 - 1 < 4096 ∧
      64 ≤ (spriteState 64 0 4094).x[(0 : RegIx)].toNat ∧ (spriteState 0 31 4094).I.toNat + 2 - 1 < 4096 ∧
      32 < (spriteState 0 31 4094).x[(1 : RegIx)].toNat + 2 := by decide
theorem witness_DrawingTwiceRestoresTheDisplay :
    SpriteFits (spriteState 63 30 4094) 0 1 2 ∧ (∀ k < 2048, pixel (spriteState 63 30 4094).fb k = false) ∧
      ((0 : RegIx) ≠ 15 ∧ (1 : RegIx) ≠ 15) ∧ spriteBit (spriteState 63 30 4094) 1 7 = true :=
  ⟨.inr (by decide), fun k _ => by simp [spriteState, withMem, withRegs, pixel, State.reset, State.resetWith,
    State.setMem, State.setI, State.setReg], by decide, by decide⟩
theorem witness_KeySkipsTestTheKeyOfTheRegister : State.reset.keys = some 0 := by decide
theorem witness_WaitKeyStaysOrTakesTheLowestKey :
    keysNow State.reset = 0 ∧ keysNow { State.reset with keys := some 0x8000 } ≠ 0 := by decide

/-- The state after reset with WaitKey(3) where execution begins. -/
def waiting : State := withMem State.reset 0x200 [0xF3, 0x0A]

theorem witness_BlockedWaitKeyIsIdempotent :
    waiting.halted = none ∧ (fetch waiting).toOption = some 0xF30A ∧ decodeWord 0xF30A = some (.waitKey 3) ∧
      (∀ op ∈ [Operation.step 0 9, .tickTimers], op = .tickTimers ∨ ∃ r, op = .step 0 r) := by
  refine ⟨by decide, by decide, by decide, ?_⟩
  simp
theorem witness_KeysAreReadOnlyByKeyInstructions :
    ∀ vx, Instr.ret ≠ .skipKeyPressed vx ∧ Instr.ret ≠ .skipKeyNotPressed vx ∧ Instr.ret ≠ .waitKey vx := by decide
theorem witness_OnlyDestinationAndFlagChange :
    ∃ t, exec (.loadRegs 14) State.reset = .next t ∧ mayWriteReg (.loadRegs 14) 15 = false := ⟨_, rfl, by decide⟩
theorem witness_SpecialStateHasOnlyItsWriters :
    ∃ t, exec (.addVxVy 1 2) State.reset = .next t ∧
      (∀ nnn vx, Instr.addVxVy 1 2 ≠ .loadI nnn ∧ Instr.addVxVy 1 2 ≠ .addIVx vx ∧ Instr.addVxVy 1 2 ≠ .loadFontVx vx) ∧
      (∀ vx, Instr.addVxVy 1 2 ≠ .loadDtVx vx) ∧ (∀ vx, Instr.addVxVy 1 2 ≠ .loadStVx vx) ∧
      (∀ nnn, Instr.addVxVy 1 2 ≠ .call nnn ∧ Instr.addVxVy 1 2 ≠ .ret) ∧
      (∀ vx vy n, Instr.addVxVy 1 2 ≠ .clearDisplay ∧ Instr.addVxVy 1 2 ≠ .displaySprite vx vy n) := by
  refine ⟨_, rfl, ?_⟩
  simp
theorem witness_OnlyStoredBytesChange :
    ∃ t, exec (.storeBcd 0) (State.reset.setI 0x300) = .next t ∧
      0x303 ∉ storedTo (.storeBcd 0) (State.reset.setI 0x300) := ⟨_, rfl, by decide⟩
theorem witness_EachInstructionYieldsItsOutcome : ∃ t, exec (.jumpV0 0xFFF) State.reset = .next t := ⟨_, rfl⟩
theorem witness_OnlyBlockedWaitKeepsThePc :
    ∃ t, exec (.waitKey 3) waiting = .next t ∧ waiting.cfg.stuckPcFatal = true ∧ t.pc = waiting.pc :=
  ⟨_, rfl, by decide, by decide⟩
theorem witness_FlagWritersLeaveZeroOrOne :
    ∃ t, exec (.shlVx 14 15) State.reset = .next t ∧ leavesFlag (.shlVx 14 15) = true ∧
      State.reset.cfg.shiftFlag = .normalized := ⟨_, rfl, by decide, by decide⟩
theorem witness_FaultsComeOnlyFromTheirInstructions :
    exec .ret State.reset = .fault .stackUnderflow ∧
      exec (.call 0x300) (depthTwo [0x300, 0x302]) = .fault .stackOverflow ∧
      exec (.jumpV0 0x200) State.reset = .fault .stuckProgramCounter ∧
      exec (.loadRegs 0) (State.reset.setI 4096) = .fault .memoryBoundsFault ∧
      exec (.displaySprite 0 1 2) (spriteState 0 31 4094) = .fault .displayRangeFault := ⟨rfl, rfl, rfl, rfl, rfl⟩
theorem witness_InstructionsWithoutFaultAlwaysGoOn : canFault (.waitKey 15) = false := by decide
theorem witness_StepOfAnInstructionWithoutFaultGoesOn :
    atLastWord.halted = none ∧ (fetch atLastWord).toOption = some 0x6ACC ∧
      decodeWord 0x6ACC = some (.loadVxByte 10 0xCC) ∧ canFault (.loadVxByte 10 0xCC) = false := by decide
theorem witness_HaltedEngineAcceptsOnlyReset :
    (State.reset.haltWith .stackOverflow).halted = some .stackOverflow ∧ Operation.view ≠ .reset := by decide
theorem witness_FaultLeadsOnOnlyThroughReset :
    State.reset.halted = none ∧ (Operation.step 0 0).apply State.reset = .fault .unrecognizedOpcode ∧
      ∃ t, Operation.run [.step 0 0, .reset, .tickTimers] State.reset = .next t := ⟨rfl, rfl, _, rfl⟩

/-- The state after reset has the form of `State.Inv` wherever its pc may stand. -/
theorem inv_atLastWord : atLastWord.Inv := ⟨by decide, rfl, by decide, by simp [atLastWord, withMem, State.reset,
  State.resetWith, State.setMem, State.setPc], trivial⟩
theorem witness_StepKeepsTheForm : atLastWord.Inv ∧ ∃ t, step atLastWord = .next t := ⟨inv_atLastWord, _, rfl⟩
theorem witness_HostOperationsKeepTheForm :
    atLastWord.Inv ∧ ∃ t, Operation.run [.step 0 0, .tickTimers, .step 0 0, .reset] atLastWord = .next t :=
  ⟨inv_atLastWord, _, rfl⟩

end Sys2Proof.Tests
end

/-! # Proofs of the state family (10_state.md)

`Effect` says once what an instruction that goes on has done; the frames, the flag rule and the invariant are read off
it. -/

section
namespace Sys2Proof.Machine

open Sys2Proof.Claims

variable {s t : State} {i : Instr} {r vx : RegIx}

/-! ## Shared operations -/

/-- Whatever a read of bytes answers, it is the bytes of memory, and the range is in memory (20_memory.md R59). -/
theorem readBytes_ok {a n : Nat} {bs : List Byte} (h : readBytes s a n = .ok bs) :
    bs = (List.range n).map (fun k => s.mem.read s.cfg.glyphs (a + k)) ∧ (n = 0 ∨ a + n ≤ 4096) := by
  by_cases hr : n = 0 ∨ a + n ≤ 4096
  · rw [readBytes_eq hr] at h
    cases h
    exact ⟨rfl, hr⟩
  · rw [readBytes_high (by omega) (by omega)] at h
    cases h

theorem readBytes_length {a n : Nat} {bs : List Byte} (h : readBytes s a n = .ok bs) : bs.length = n := by
  simp [(readBytes_ok h).1]

/-- A jump goes on at its target, and only where the self-check lets it (40_step_and_control_flow.md R104). -/
theorem finish_jumpTo_next {a : Word} (h : finish (.jumpTo a) s = .next t) :
    (a ≠ s.pc ∨ s.cfg.stuckPcFatal = false) ∧ t = s.setPc a := by
  refine ⟨?_, finish_next h⟩
  by_contra hs
  simp only [not_or, not_not, Bool.not_eq_false] at hs
  obtain ⟨rfl, hf⟩ := hs
  rw [finish_jumpTo_self hf] at h
  cases h

theorem reg_setFlagThenReg_other {f v : Byte} (hd : r ≠ vx) (hf : r ≠ vF) :
    (s.setFlagThenReg f vx v).reg r = s.reg r :=
  (reg_setReg_other _ _ _ _ hd.symm).trans (reg_setReg_other _ _ _ _ hf.symm)

/-- The flag survives the write of another destination (10_state.md R22, R23). -/
theorem reg_vF_setFlagThenReg {f v : Byte} (hd : vx ≠ vF) : (s.setFlagThenReg f vx v).reg vF = f :=
  (reg_setReg_other _ _ _ _ hd).trans (reg_setReg_self _ _ _)

/-- A block load leaves the registers above its bytes as they were (41_load_store.md R124). -/
theorem reg_setFirstRegs_above {bs : List Byte} (h : bs.length ≤ r.val) : (s.setFirstRegs bs).reg r = s.reg r := by
  rw [reg_setFirstRegs, List.getElem?_eq_none h, Option.getD_none]

/-! ## What an instruction that goes on has done -/

/-- The next state of each instruction, with the conditions under which it goes on. The outcome of the step
(40_step_and_control_flow.md R103) is the last update; what comes before it is the instruction's own work. -/
inductive Effect (s : State) : Instr → State → Prop
  | clearDisplay : Effect s .clearDisplay ((s.setFb clearedDisplay).setPc (s.pc + 2))
  | ret {a : Word} {rest : List Word} (top : s.stack = a :: rest) (moves : a ≠ s.pc ∨ s.cfg.stuckPcFatal = false) :
      Effect s .ret ((s.setStack rest).setPc a)
  | jump (nnn : Addr) (moves : addrWord nnn ≠ s.pc ∨ s.cfg.stuckPcFatal = false) :
      Effect s (.jump nnn) (s.setPc (addrWord nnn))
  | call (nnn : Addr) (room : stackFull s.cfg.stackDepth s.stack.length = false)
      (moves : addrWord nnn ≠ s.pc ∨ s.cfg.stuckPcFatal = false) :
      Effect s (.call nnn) ((s.setStack ((s.pc + 2) :: s.stack)).setPc (addrWord nnn))
  | skipEqVxByte (vx : RegIx) (nn : Byte) :
      Effect s (.skipEqVxByte vx nn) (s.setPc ((skipIf (s.reg vx == nn)).target s.pc))
  | skipNeVxByte (vx : RegIx) (nn : Byte) :
      Effect s (.skipNeVxByte vx nn) (s.setPc ((skipIf (s.reg vx != nn)).target s.pc))
  | skipEqVxVy (vx vy : RegIx) :
      Effect s (.skipEqVxVy vx vy) (s.setPc ((skipIf (s.reg vx == s.reg vy)).target s.pc))
  | loadVxByte (vx : RegIx) (nn : Byte) : Effect s (.loadVxByte vx nn) ((s.setReg vx nn).setPc (s.pc + 2))
  | addVxByte (vx : RegIx) (nn : Byte) :
      Effect s (.addVxByte vx nn) ((s.setReg vx (s.reg vx + nn)).setPc (s.pc + 2))
  | loadVxVy (vx vy : RegIx) : Effect s (.loadVxVy vx vy) ((s.setReg vx (s.reg vy)).setPc (s.pc + 2))
  | orVxVy (vx vy : RegIx) : Effect s (.orVxVy vx vy) ((s.setReg vx (s.reg vx ||| s.reg vy)).setPc (s.pc + 2))
  | andVxVy (vx vy : RegIx) : Effect s (.andVxVy vx vy) ((s.setReg vx (s.reg vx &&& s.reg vy)).setPc (s.pc + 2))
  | xorVxVy (vx vy : RegIx) : Effect s (.xorVxVy vx vy) ((s.setReg vx (s.reg vx ^^^ s.reg vy)).setPc (s.pc + 2))
  | addVxVy (vx vy : RegIx) : Effect s (.addVxVy vx vy)
      ((s.setFlagThenReg (carryFlag (s.reg vx) (s.reg vy)) vx (s.reg vx + s.reg vy)).setPc (s.pc + 2))
  | subVxVy (vx vy : RegIx) : Effect s (.subVxVy vx vy)
      ((s.setFlagThenReg (exceedsFlag (s.reg vx) (s.reg vy)) vx (s.reg vx - s.reg vy)).setPc (s.pc + 2))
  | shrVx (vx vy : RegIx) : Effect s (.shrVx vx vy)
      ((s.setFlagThenReg (shrFlag (s.reg vx)) vx (s.reg vx >>> 1)).setPc (s.pc + 2))
  | subnVxVy (vx vy : RegIx) : Effect s (.subnVxVy vx vy)
      ((s.setFlagThenReg (exceedsFlag (s.reg vy) (s.reg vx)) vx (s.reg vy - s.reg vx)).setPc (s.pc + 2))
  | shlVx (vx vy : RegIx) : Effect s (.shlVx vx vy)
      ((s.setFlagThenReg (shlFlag s.cfg.shiftFlag (s.reg vx)) vx (s.reg vx <<< 1)).setPc (s.pc + 2))
  | skipNeVxVy (vx vy : RegIx) :
      Effect s (.skipNeVxVy vx vy) (s.setPc ((skipIf (s.reg vx != s.reg vy)).target s.pc))
  | loadI (nnn : Addr) : Effect s (.loadI nnn) ((s.setI (addrWord nnn)).setPc (s.pc + 2))
  | jumpV0 (nnn : Addr) (moves : addrWord nnn + byteWord (s.reg 0) ≠ s.pc ∨ s.cfg.stuckPcFatal = false) :
      Effect s (.jumpV0 nnn) (s.setPc (addrWord nnn + byteWord (s.reg 0)))
  | rndVxByte (vx : RegIx) (nn : Byte) :
      Effect s (.rndVxByte vx nn) ((s.setReg vx (drawNow s &&& nn)).consumeDraw.setPc (s.pc + 2))
  | displaySprite (vx vy : RegIx) {n : Nat} {rows : List Byte} {p : Display × Bool}
      (sprite : readBytes s (effAddr s 0) n = .ok rows)
      (drawn : writeSprite (s.reg vx).toNat (s.reg vy).toNat rows s.fb = .ok p) :
      Effect s (.displaySprite vx vy n) (((s.setFb p.1).setFlag (flagByte p.2)).setPc (s.pc + 2))
  | skipKeyPressed (vx : RegIx) :
      Effect s (.skipKeyPressed vx) (s.setPc ((skipIf (keyPressed (keysNow s) (s.reg vx))).target s.pc))
  | skipKeyNotPressed (vx : RegIx) :
      Effect s (.skipKeyNotPressed vx) (s.setPc ((skipIf (!keyPressed (keysNow s) (s.reg vx))).target s.pc))
  | loadVxDt (vx : RegIx) : Effect s (.loadVxDt vx) ((s.setReg vx s.DT).setPc (s.pc + 2))
  | waitKeyStays (vx : RegIx) (noKey : keysNow s = 0) : Effect s (.waitKey vx) s
  | waitKeyTakes (vx : RegIx) (someKey : keysNow s ≠ 0) :
      Effect s (.waitKey vx) ((s.setReg vx (leastKey (keysNow s))).setPc (s.pc + 2))
  | loadDtVx (vx : RegIx) : Effect s (.loadDtVx vx) ((s.setDT (s.reg vx)).setPc (s.pc + 2))
  | loadStVx (vx : RegIx) : Effect s (.loadStVx vx) ((s.setST (s.reg vx)).setPc (s.pc + 2))
  | addIVx (vx : RegIx) : Effect s (.addIVx vx) ((s.setI (s.I + byteWord (s.reg vx))).setPc (s.pc + 2))
  | loadFontVx (vx : RegIx) : Effect s (.loadFontVx vx) ((s.setI (byteWord (s.reg vx) * 5)).setPc (s.pc + 2))
  | storeBcd (vx : RegIx) (inMemory : effAddr s 2 < 4096) : Effect s (.storeBcd vx)
      ((s.setMem (s.mem.writeAll s.cfg.glyphs (effAddr s 0) (bcdDigits (s.reg vx)))).setPc (s.pc + 2))
  | storeRegs (vx : RegIx) (inMemory : effAddr s vx.val < 4096) : Effect s (.storeRegs vx)
      ((s.setMem (s.mem.writeAll s.cfg.glyphs (effAddr s 0) (s.firstRegs vx))).setPc (s.pc + 2))
  | loadRegs (vx : RegIx) {bs : List Byte} (inMemory : readBytes s (effAddr s 0) (vx.val + 1) = .ok bs) :
      Effect s (.loadRegs vx) ((s.setFirstRegs bs).setPc (s.pc + 2))

/-- A block store that goes on has stored all its bytes, and every one of its addresses is in memory
(41_load_store.md R123, R125). -/
theorem store_next {vs : List Byte} {k : Nat} (hl : vs.length = k + 1)
    (h : orRaise (writeBytes s (effAddr s 0) vs) (finish .increment) = .next t) :
    effAddr s k < 4096 ∧ t = (s.setMem (s.mem.writeAll s.cfg.glyphs (effAddr s 0) vs)).setPc (s.pc + 2) := by
  obtain ⟨u, hu, hf⟩ := orRaise_next h
  obtain ⟨rfl, hr⟩ := writeBytes_ok hu
  refine ⟨?_, finish_next hf⟩
  rcases hr with rfl | hr
  · cases hl
  · simp only [effAddr] at hr ⊢
    omega

/-- Inversion of `exec`: an instruction that goes on has had its effect. -/
theorem effect_of_exec (h : exec i s = .next t) : Effect s i t := by
  cases i with
  | ret =>
    obtain ⟨⟨a, u⟩, hp, hf⟩ := orRaise_next h
    obtain ⟨rest, top, rfl⟩ := pop_ok hp
    obtain ⟨moves, rfl⟩ := finish_jumpTo_next hf
    exact .ret top moves
  | call nnn =>
    obtain ⟨u, hp, hf⟩ := orRaise_next h
    obtain ⟨rfl, room⟩ := push_ok hp
    obtain ⟨moves, rfl⟩ := finish_jumpTo_next hf
    exact .call nnn room moves
  | jump nnn =>
    obtain ⟨moves, rfl⟩ := finish_jumpTo_next h
    exact .jump nnn moves
  | jumpV0 nnn =>
    obtain ⟨moves, rfl⟩ := finish_jumpTo_next h
    exact .jumpV0 nnn moves
  | displaySprite vx vy n =>
    obtain ⟨rows, sprite, h⟩ := orRaise_next h
    obtain ⟨p, drawn, hf⟩ := orRaise_next h
    obtain rfl := finish_next hf
    exact .displaySprite vx vy sprite drawn
  | waitKey vx =>
    by_cases hk : keysNow s = 0
    · have hs : finish .stay s = .next t := by simpa only [exec, execWaitKey, if_pos hk] using h
      obtain rfl := finish_next hs
      exact .waitKeyStays vx hk
    · have hi : finish .increment (s.setReg vx (leastKey (keysNow s))) = .next t := by
        simpa only [exec, execWaitKey, if_neg hk] using h
      obtain rfl := finish_next hi
      exact .waitKeyTakes vx hk
  | storeBcd vx =>
    obtain ⟨inMemory, rfl⟩ := store_next (k := 2) rfl h
    exact .storeBcd vx inMemory
  | storeRegs vx =>
    obtain ⟨inMemory, rfl⟩ := store_next (firstRegs_length s vx) h
    exact .storeRegs vx inMemory
  | loadRegs vx =>
    obtain ⟨bs, inMemory, hf⟩ := orRaise_next h
    obtain rfl := finish_next hf
    exact .loadRegs vx inMemory
  | _ =>
    obtain rfl := finish_next h
    constructor

/-! ## The invariant of a step (10_state.md R26, R30) -/

theorem toNat_add_two_le {p : Word} (h : p.toNat ≤ 4094) : (p + 2).toNat ≤ 4096 := by bv_omega

theorem toNat_target_skipIf_le {p : Word} (h : p.toNat ≤ 4094) (c : Bool) : ((skipIf c).target p).toNat ≤ 4098 := by
  cases c with
  | false => exact (toNat_add_two_le h).trans (by decide)
  | true =>
    change (p + 4).toNat ≤ 4098
    bv_omega

theorem addrWord_toNat (nnn : Addr) : (addrWord nnn).toNat = nnn.toNat := by
  simp only [addrWord, BitVec.toNat_setWidth]
  omega

/-- The target of JumpV0 is the sum of natural numbers: 16 bits hold it (40_step_and_control_flow.md R108). -/
theorem addrWord_add_byteWord_toNat (nnn : Addr) (v : Byte) :
    (addrWord nnn + byteWord v).toNat = nnn.toNat + v.toNat := by
  simp only [BitVec.toNat_add, addrWord_toNat, byteWord, BitVec.toNat_setWidth]
  omega

/-- An instruction fetched from memory leaves `pc` at most 0x10FE, the greatest target of JumpV0 (10_state.md R26). -/
theorem Effect.pc_le (e : Effect s i t) (hpc : s.pc.toNat ≤ 4094) (hret : ∀ a ∈ s.stack, a.toNat ≤ 4096) :
    t.pc.toNat ≤ 0x10FE := by
  cases e with
  | @ret a rest top =>
    have ha : a.toNat ≤ 4096 := hret a (by simp [top])
    exact ha.trans (by decide)
  | jump nnn | call nnn =>
    have := nnn.isLt
    simp only [setPc_pc, addrWord_toNat]
    omega
  | jumpV0 nnn =>
    have := nnn.isLt
    have := (s.reg 0).isLt
    simp only [setPc_pc, addrWord_add_byteWord_toNat]
    omega
  | skipEqVxByte | skipNeVxByte | skipEqVxVy | skipNeVxVy | skipKeyPressed | skipKeyNotPressed =>
    exact (toNat_target_skipIf_le hpc _).trans (by decide)
  | waitKeyStays => exact hpc.trans (by decide)
  | _ => exact (toNat_add_two_le hpc).trans (by decide)

/-- Call pushes an address at most 4096, and Return leaves what was below (10_state.md R26). -/
theorem Effect.returns_le (e : Effect s i t) (hpc : s.pc.toNat ≤ 4094) (hret : ∀ a ∈ s.stack, a.toNat ≤ 4096) :
    ∀ a ∈ t.stack, a.toNat ≤ 4096 := by
  cases e with
  | ret top => exact fun a ha => hret a (by rw [top]; exact List.mem_cons_of_mem _ ha)
  | call => exact List.forall_mem_cons.2 ⟨toNat_add_two_le hpc, hret⟩
  | _ => exact hret

/-- A shorter stack fits where a longer one does. -/
theorem stackFits_of_le {depth : Option Nat} {m n : Nat} (hmn : m ≤ n) (h : stackFits depth n) :
    stackFits depth m := by
  cases depth with
  | none => trivial
  | some d => exact hmn.trans h

/-- A stack that is not full has room for one more entry (10_state.md R30). -/
theorem stackFits_succ {depth : Option Nat} {n : Nat} (h : stackFull depth n = false) : stackFits depth (n + 1) := by
  cases depth with
  | none => trivial
  | some d => exact Nat.lt_of_not_le (of_decide_eq_false h)

/-- Only Call makes the stack longer, and only where it is not full (10_state.md R30). -/
theorem Effect.stack_fits (e : Effect s i t) (h : stackFits s.cfg.stackDepth s.stack.length) :
    stackFits t.cfg.stackDepth t.stack.length := by
  cases e with
  | ret top => exact stackFits_of_le (Nat.le_succ _) (by rwa [top] at h)
  | call _ room => exact stackFits_succ room
  | _ => exact h

/-- The two store instructions keep memory canonical, and no other writes it (20_memory.md R50). -/
theorem Effect.memory_wf (e : Effect s i t) (h : s.mem.wf s.cfg.glyphs = true) : t.mem.wf t.cfg.glyphs = true := by
  cases e with
  | storeBcd vx inMemory => exact wf_writeAll _ inMemory h
  | storeRegs vx inMemory => exact wf_writeAll _ (by rw [firstRegs_length]; exact inMemory) h
  | _ => exact h

/-- The components that no instruction writes (10_state.md R32, R35, 47_keys.md R183). -/
theorem Effect.fixed (e : Effect s i t) :
    t.halted = s.halted ∧ t.cfg = s.cfg ∧ t.keys = s.keys ∧ t.steps = s.steps := by
  cases e <;> exact ⟨rfl, rfl, rfl, rfl⟩

/-- The effect of an instruction fetched from memory keeps the form. -/
theorem Effect.inv (e : Effect s i t) (h : s.Inv) (hpc : s.pc.toNat ≤ 4094) : t.Inv where
  memory := e.memory_wf h.memory
  running := e.fixed.1.trans h.running
  counter := e.pc_le hpc h.returns
  returns := e.returns_le hpc h.returns
  depth := e.stack_fits h.depth

theorem nextCall_inv (h : s.Inv) : s.nextCall.Inv := ⟨h.memory, h.running, h.counter, h.returns, h.depth⟩

/-- Settles O59: the fetch bounds `pc` by 4094, and from there every effect keeps the form. -/
theorem stepKeepsTheForm : Obligations.StepKeepsTheForm := by
  intro s t hs h
  obtain ⟨-, w, i, u, hw, -, hu, rfl⟩ := step_next h
  exact nextCall_inv ((effect_of_exec hu).inv hs (fetch_ok_pc hw))

/-! ## Frames (10_state.md R22, R27 to R35) -/

/-- Settles O46: the register writers write their destination, the flag writers `VF` before it, LoadRegs the registers
up to `vx`; every other effect keeps the register file. -/
theorem onlyDestinationAndFlagChange : Obligations.OnlyDestinationAndFlagChange := by
  intro i s t r h hr
  change t.reg r = s.reg r
  cases effect_of_exec h with
  | loadVxByte | addVxByte | loadVxVy | orVxVy | andVxVy | xorVxVy | rndVxByte | loadVxDt | waitKeyTakes =>
    have hd : r ≠ _ := beq_eq_false_iff_ne.1 hr
    exact reg_setReg_other s _ r _ hd.symm
  | addVxVy | subVxVy | shrVx | subnVxVy | shlVx =>
    obtain ⟨hd, hf⟩ := Bool.or_eq_false_iff.1 hr
    exact reg_setFlagThenReg_other (beq_eq_false_iff_ne.1 hd) (beq_eq_false_iff_ne.1 hf)
  | displaySprite =>
    have hf : r ≠ vF := beq_eq_false_iff_ne.1 hr
    exact reg_setReg_other _ vF r _ hf.symm
  | loadRegs vx inMemory =>
    have hv : ¬ r ≤ vx := of_decide_eq_false hr
    exact reg_setFirstRegs_above (by rw [readBytes_length inMemory]; exact Nat.lt_of_not_le hv)
  | _ => rfl

/-- Settles O47, one component at a time: the effects of all but its writers keep it. -/
theorem specialStateHasOnlyItsWriters : Obligations.SpecialStateHasOnlyItsWriters := by
  intro i s t h
  have e := effect_of_exec h
  refine ⟨?_, ?_, ?_, ?_, ?_, e.fixed⟩ <;> intro hw
  · cases e with
    | loadI nnn => exact absurd rfl (hw nnn 0).1
    | addIVx vx => exact absurd rfl (hw 0 vx).2.1
    | loadFontVx vx => exact absurd rfl (hw 0 vx).2.2
    | _ => rfl
  · cases e with
    | loadDtVx vx => exact absurd rfl (hw vx)
    | _ => rfl
  · cases e with
    | loadStVx vx => exact absurd rfl (hw vx)
    | _ => rfl
  · cases e with
    | call nnn => exact absurd rfl (hw nnn).1
    | ret => exact absurd rfl (hw 0).2
    | _ => rfl
  · cases e with
    | clearDisplay => exact absurd rfl (hw 0 0 0).1
    | displaySprite vx vy => exact absurd rfl (hw vx vy _).2
    | _ => rfl

/-! ## The flag (10_state.md R38, R39) -/

theorem flagByte_zero_or_one (c : Bool) : flagByte c = 0 ∨ flagByte c = 1 := by
  cases c
  · exact .inl rfl
  · exact .inr rfl

theorem shrFlag_zero_or_one (v : Byte) : shrFlag v = 0 ∨ shrFlag v = 1 := by
  have h : shrFlag v = (BitVec.ofBool (v.getLsbD 0)).setWidth 8 := BitVec.and_one_eq_setWidth_ofBool_getLsbD
  rw [h]
  cases v.getLsbD 0
  · exact .inl rfl
  · exact .inr rfl

/-- Settles O51: a destination other than `VF` leaves the flag, and each flag is 0 or 1; ShlVx's by the normalized
`SHIFT_FLAG`. -/
theorem flagWritersLeaveZeroOrOne : Obligations.FlagWritersLeaveZeroOrOne := by
  intro i s t h hl hn
  change t.reg vF = 0 ∨ t.reg vF = 1
  cases effect_of_exec h with
  | addVxVy vx | subVxVy vx | subnVxVy vx =>
    rw [reg_setPc, reg_vF_setFlagThenReg (bne_iff_ne.1 hl)]
    exact flagByte_zero_or_one _
  | shrVx vx =>
    rw [reg_setPc, reg_vF_setFlagThenReg (bne_iff_ne.1 hl)]
    exact shrFlag_zero_or_one _
  | shlVx vx =>
    rw [reg_setPc, reg_vF_setFlagThenReg (bne_iff_ne.1 hl), hn]
    exact flagByte_zero_or_one _
  | displaySprite =>
    rw [reg_setPc, State.setFlag, reg_setReg_self]
    exact flagByte_zero_or_one _
  | _ => cases hl

/-! ## The halted engine (10_state.md R35) -/

theorem step_halted {k : Fault} (h : s.halted = some k) : step s = .refused (.engineHalted k) := by
  simp only [step, h]

/-- Settles O55: the step and the other operations are refused by the halted check, Reset is accepted. -/
theorem haltedEngineAcceptsOnlyReset : Obligations.HaltedEngineAcceptsOnlyReset := by
  intro s k op h
  exact ⟨step_halted h, apply_halted h, resetOf s, apply_reset s, rfl, rfl⟩

end Sys2Proof.Machine
end

/-! # Proofs of the memory family (20_memory.md)

What a bounds-checked access reads after a copy of bytes, and the fetch as two such accesses; the statements are read
off these rules. -/

section
namespace Sys2Proof.Machine

variable {s t : State} {a b k : Nat} {vs : List Byte}

/-! ## Bounds-checked reads after a write (20_memory.md R53, R54, R55) -/

/-- A byte access sees of a state only the byte that memory reads there. -/
theorem readByte_congr (h : t.mem.read t.cfg.glyphs a = s.mem.read s.cfg.glyphs a) : readByte t a = readByte s a := by
  simp only [readByte, h]

theorem readByte_write_self {v : Byte} (ha : a < 4096) :
    readByte (s.setMem (s.mem.write s.cfg.glyphs a v)) a = .ok v := by
  rw [readByte_eq ha, setMem_mem, setMem_cfg, read_write_self]

theorem readByte_write_other {v : Byte} (h : b ≠ a) :
    readByte (s.setMem (s.mem.write s.cfg.glyphs a v)) b = readByte s b :=
  readByte_congr (read_write_other _ _ _ _ _ h)

theorem readByte_writeAll_inside (hm : a + vs.length ≤ 4096) (hk : k < vs.length) :
    readByte (s.setMem (s.mem.writeAll s.cfg.glyphs a vs)) (a + k) = .ok vs[k] := by
  rw [readByte_eq (by omega), setMem_mem, setMem_cfg, read_writeAll_inside]

theorem readByte_writeAll_outside (h : b < a ∨ a + vs.length ≤ b) :
    readByte (s.setMem (s.mem.writeAll s.cfg.glyphs a vs)) b = readByte s b :=
  readByte_congr (read_writeAll_outside _ _ _ _ _ h)

/-- Settles O6: both accesses make the same bounds check, and a write in range replaces memory by one with the byte
written. -/
theorem byteAccessIsBoundsCheckedAndExact : Obligations.ByteAccessIsBoundsCheckedAndExact := by
  intro s a v
  constructor
  · intro ha
    exact ⟨⟨_, readByte_eq ha⟩, _, writeByte_eq ha, readByte_write_self ha, fun _ => readByte_write_other, rfl⟩
  · intro ha
    exact ⟨readByte_high ha, writeByte_high ha⟩

/-! ## The host's Load (20_memory.md R55) -/

theorem load_eq (h : a + vs.length ≤ 4096) : load s a vs = .next (s.setMem (s.mem.writeAll s.cfg.glyphs a vs)) := by
  simp [load, memSize, Nat.not_lt.2 h]

theorem load_high (h : 4096 < a + vs.length) : load s a vs = .fault .memoryBoundsFault := by
  simp [load, memSize, h, raise]

/-- Settles O7: on a running engine the operation is `load`, which copies a range in memory and faults on any other. -/
theorem loadCopiesWholeRangeOrFaults : Obligations.LoadCopiesWholeRangeOrFaults := by
  intro s addr bytes hr
  rw [apply_running hr]
  constructor
  · intro hm
    exact ⟨_, load_eq hm, fun _ => readByte_writeAll_inside hm, fun _ => readByte_writeAll_outside, rfl⟩
  · exact load_high

/-! ## The fetch (20_memory.md R56, R57, R64) -/

/-- The fetch is the two byte accesses at `pc` and `pc + 1`. -/
theorem fetch_of_bytes {hi lo : Byte} (hhi : readByte s s.pc.toNat = .ok hi)
    (hlo : readByte s (s.pc.toNat + 1) = .ok lo) : fetch s = .ok (wordOfBytes hi lo) := by
  simp only [fetch, hhi, hlo]

/-- Settles O8: in range both bytes are there and their word is big-endian; from 4095 on one of them is not. -/
theorem fetchIsBigEndianOrFaults : Obligations.FetchIsBigEndianOrFaults := by
  intro s
  constructor
  · intro hpc
    exact ⟨_, _, readByte_eq (by omega), readByte_eq (by omega), by rw [fetch_eq hpc, wordOfBytes_eq]⟩
  · exact fetch_high

/-- A fetch at offset `k` of a range just copied answers the word of the two bytes there. -/
theorem fetch_writeAll (pc : Word) (hm : a + vs.length ≤ 4096) (hpc : pc.toNat = a + k) (hk : k + 1 < vs.length) :
    fetch ((s.setMem (s.mem.writeAll s.cfg.glyphs a vs)).setPc pc) = .ok (wordOfBytes vs[k] vs[k + 1]) := by
  apply fetch_of_bytes
  · rw [readByte_setPc, setPc_pc, hpc, readByte_writeAll_inside hm]
  · rw [readByte_setPc, setPc_pc, hpc, Nat.add_assoc, readByte_writeAll_inside hm]

theorem exec_storeRegs {vx : RegIx} (h : effAddr s vx.val < 4096) :
    exec (.storeRegs vx) s
      = .next ((s.setMem (s.mem.writeAll s.cfg.glyphs (effAddr s 0) (s.firstRegs vx))).setPc (s.pc + 2)) := by
  have hm : effAddr s 0 + (s.firstRegs vx).length ≤ 4096 := by rwa [firstRegs_length]
  rw [exec, execStoreRegs, writeBytes_eq (.inr hm), orRaise_ok, finish_increment, setMem_pc]

theorem firstRegs_getElem {vx j : RegIx} (h : j ≤ vx) (hl : j.val < (s.firstRegs vx).length) :
    (s.firstRegs vx)[j.val] = s.x[j] :=
  (List.getElem_eq_iff hl).2 (firstRegs_getElem? s h)

/-- Settles O9: `pc` after the store is the address of register `j`, where the two registers have just been stored. -/
theorem storeIsSeenByTheNextFetch : Obligations.StoreIsSeenByTheNextFetch := by
  intro vx j k s hm hjk hk hj
  have hkv : k.val ≤ vx.val := hk
  have hpc : (s.pc + 2).toNat = effAddr s 0 + j.val := by
    simp only [effAddr] at hm hj ⊢
    bv_omega
  have hlen : j.val + 1 < (s.firstRegs vx).length := by rw [firstRegs_length]; omega
  refine ⟨_, exec_storeRegs hm, ?_⟩
  have hj' : j ≤ vx := Fin.le_def.2 (by omega)
  rw [fetch_writeAll _ (by rwa [firstRegs_length]) hpc hlen, wordOfBytes_eq]
  simp only [hjk, firstRegs_getElem hj', firstRegs_getElem hk]

/-! ## Placing a word (log 16) -/

theorem placeAtPc_eq {w : Word} (h : s.pc.toNat ≤ 4094) :
    placeAtPc s w = s.setMem (s.mem.writeAll s.cfg.glyphs s.pc.toNat (bytesOfWord w)) := by
  have hm : s.pc.toNat + (bytesOfWord w).length ≤ 4096 := Nat.add_le_add_right h 2
  rw [placeAtPc, writeBytes_eq (.inr hm)]

theorem fetch_placeAtPc {w : Word} (h : s.pc.toNat ≤ 4094) : fetch (placeAtPc s w) = .ok w := by
  have hf := fetch_writeAll (s := s) (vs := bytesOfWord w) (k := 0) s.pc (Nat.add_le_add_right h 2) rfl (Nat.lt_succ_self 1)
  rw [placeAtPc_eq h]
  exact hf.trans (congrArg _ (wordOfBytes_bytesOfWord w))

/-- Settles O13: `withFetchWord` copies the word's two bytes to `pc`, and the fetch puts them together again. -/
theorem placedWordIsFetched : Obligations.PlacedWordIsFetched := by
  intro s w h
  have hw : BitVec.ofNat 16 (w % 2 ^ 16) = BitVec.ofNat 16 w :=
    BitVec.eq_of_toNat_eq (by simp)
  rw [State.withFetchWord, hw]
  exact ⟨fetch_placeAtPc h, by rw [placeAtPc_eq h]; rfl⟩

/-! ## The frame of memory (20_memory.md R59, R63) -/

/-- After bytes are stored from `I` on, an address that none of them went to reads as before. -/
theorem readByte_store_outside {pc : Word} (h : a ∉ (List.range vs.length).map (effAddr s)) :
    readByte ((s.setMem (s.mem.writeAll s.cfg.glyphs (effAddr s 0) vs)).setPc pc) a = readByte s a := by
  refine (readByte_setPc _ _ _).trans (readByte_writeAll_outside ?_)
  by_contra hc
  refine h (List.mem_map.2 ⟨a - effAddr s 0, List.mem_range.2 (by omega), ?_⟩)
  simp only [effAddr] at hc ⊢
  omega

/-- Settles O48: the two store instructions copy to the addresses from `I` on; every other effect keeps memory. -/
theorem onlyStoredBytesChange : Obligations.OnlyStoredBytesChange := by
  intro i s t a h ha
  cases effect_of_exec h with
  | storeBcd vx => exact readByte_store_outside ha
  | storeRegs vx => exact readByte_store_outside (by rwa [firstRegs_length])
  | _ => rfl

end Sys2Proof.Machine
end

/-! # Proofs of the encoding family (30_encoding.md)

A word is read as a number: its row fixes the top nibble and some low bits, and the operand fields are the digits
between. An instruction of a row is encoded as the row's pattern plus the value of its fields; both round trips and the
list of R79 are read off that. -/

section
namespace Sys2Proof

variable {w : Word} {r q : Row} {o o' : Operands} {i : Instr}

/-! ## The fixed bits of a word (R72, R74) -/

/-- How many low bits a format fixes besides the top nibble. -/
def Format.lowBits : Format → Nat
  | .op => 12
  | .nnn | .xnn | .xyn => 0
  | .xy => 4
  | .x => 8

theorem and_mask_div (f : Format) (w : Word) : (w &&& f.mask).toNat / 4096 = w.toNat / 4096 := by
  have high : f.mask.toNat / 2 ^ 12 = 2 ^ 4 - 1 := by cases f <;> rfl
  have nibble : w.toNat / 2 ^ 12 < 2 ^ 4 := by omega
  calc (w.toNat &&& f.mask.toNat) / 2 ^ 12 = w.toNat / 2 ^ 12 % 2 ^ 4 := by
        rw [Nat.and_div_two_pow, high, Nat.and_two_pow_sub_one_eq_mod]
    _ = w.toNat / 2 ^ 12 := Nat.mod_eq_of_lt nibble

theorem and_mask_mod (f : Format) (w : Word) : (w &&& f.mask).toNat % 4096 = w.toNat % 2 ^ f.lowBits := by
  have low : f.mask.toNat % 2 ^ 12 = 2 ^ f.lowBits - 1 := by cases f <;> rfl
  have within : f.lowBits ≤ 12 := by cases f <;> decide
  calc (w.toNat &&& f.mask.toNat) % 2 ^ 12 = w.toNat % 2 ^ 12 % 2 ^ f.lowBits := by
        rw [Nat.and_mod_two_pow, low, Nat.and_two_pow_sub_one_eq_mod]
    _ = w.toNat % 2 ^ f.lowBits := Nat.mod_mod_of_dvd _ (Nat.pow_dvd_pow 2 within)

/-- A row fixes the top nibble and its format's low bits. -/
theorem matchesWord_iff : r.matchesWord w = true ↔
    w.toNat / 4096 = r.pattern.toNat / 4096 ∧ w.toNat % 2 ^ r.format.lowBits = r.pattern.toNat % 4096 := by
  rw [Row.matchesWord, beq_iff_eq, ← BitVec.toNat_inj, ← and_mask_div r.format w, ← and_mask_mod]
  omega

/-! ## The operand fields of a word (R71) -/

/-- The fields of a format, laid into a word. -/
def Format.fields (o : Operands) : Format → Word
  | .op => 0
  | .nnn => placeNNN o.nnn
  | .xnn => placeX o.vx ||| placeNN o.nn
  | .xy => placeX o.vx ||| placeY o.vy
  | .xyn => placeX o.vx ||| placeY o.vy ||| placeN o.n
  | .x => placeX o.vx

/-- The number that the fields of a format make. -/
def Format.value (o : Operands) : Format → Nat
  | .op => 0
  | .nnn => o.nnn.toNat
  | .xnn => 256 * o.vx.val + o.nn.toNat
  | .xy => 256 * o.vx.val + 16 * o.vy.val
  | .xyn => 256 * o.vx.val + (16 * o.vy.val + o.n)
  | .x => 256 * o.vx.val

/-- The operands that a format carries, the others at 0. -/
def Format.keep (o : Operands) : Format → Operands
  | .op => ⟨0, 0, 0, 0, 0⟩
  | .nnn => ⟨0, 0, 0, 0, o.nnn⟩
  | .xnn => ⟨o.vx, 0, 0, o.nn, 0⟩
  | .xy => ⟨o.vx, o.vy, 0, 0, 0⟩
  | .xyn => ⟨o.vx, o.vy, o.n, 0, 0⟩
  | .x => ⟨o.vx, 0, 0, 0, 0⟩

theorem fields_and_mask (f : Format) (hn : o.n ≤ 15) : f.fields o &&& f.mask = 0#16 := by
  cases f <;> simp [Format.fields, Format.mask, and_or_right, placeX_and_op, placeX_and_xy, placeX_and_x,
    placeY_and_op, placeY_and_xy, placeN_and_op hn, placeNN_and_op, placeNNN_and_op]

theorem placeX_toNat : ∀ vx, (placeX vx).toNat = 256 * vx.val := by decide

theorem placeY_toNat : ∀ vy, (placeY vy).toNat = 16 * vy.val := by decide

theorem placeN_toNat {n : Nat} (h : n ≤ 15) : (placeN n).toNat = n := by
  rw [placeN, BitVec.toNat_ofNat, Nat.mod_eq_of_lt (by omega)]

theorem placeNN_toNat (nn : Byte) : (placeNN nn).toNat = nn.toNat := BitVec.toNat_setWidth_of_le (by decide)

theorem placeNNN_toNat (nnn : Addr) : (placeNNN nnn).toNat = nnn.toNat := BitVec.toNat_setWidth_of_le (by decide)

/-- The fields of a format do not overlap, so their OR is their sum. -/
theorem fields_toNat (f : Format) (hn : o.n ≤ 15) : (f.fields o).toNat = f.value o := by
  have orX : ∀ b < 2 ^ 8, 256 * o.vx.val ||| b = 256 * o.vx.val + b :=
    fun b hb => (Nat.two_pow_add_eq_or_of_lt hb o.vx.val).symm
  have orY : 16 * o.vy.val ||| o.n = 16 * o.vy.val + o.n :=
    (Nat.two_pow_add_eq_or_of_lt (i := 4) (by omega) o.vy.val).symm
  cases f with
  | op => rfl
  | nnn => exact placeNNN_toNat o.nnn
  | xnn => rw [Format.fields, BitVec.toNat_or, placeX_toNat, placeNN_toNat, orX _ o.nn.isLt, Format.value]
  | xy => rw [Format.fields, BitVec.toNat_or, placeX_toNat, placeY_toNat, orX _ (by omega), Format.value]
  | xyn =>
    rw [Format.fields, BitVec.toNat_or, BitVec.toNat_or, placeX_toNat, placeY_toNat, placeN_toNat hn, Nat.or_assoc, orY,
      orX _ (by omega), Format.value]
  | x => exact placeX_toNat o.vx

theorem operandsOf_n_le (w : Word) : (operandsOf w).n ≤ 15 := Nat.le_of_lt_succ (Nat.mod_lt _ (by decide))

/-- The fields read from a word are what it has between the top nibble and the format's low bits. -/
theorem value_operandsOf (f : Format) (w : Word) :
    f.value (operandsOf w) + w.toNat % 2 ^ f.lowBits = w.toNat % 4096 := by
  cases f <;> simp [Format.value, operandsOf, regField, Format.lowBits, Nat.shiftRight_eq_div_pow] <;> omega

/-- The number that the fields make determines each of them. -/
theorem keep_eq_of_value_eq (f : Format) (hn : o.n ≤ 15) (hn' : o'.n ≤ 15) (h : f.value o = f.value o') :
    f.keep o = f.keep o' := by
  cases f <;> simp [Format.value, Format.keep, Fin.ext_iff, ← BitVec.toNat_inj] at h ⊢ <;> omega

/-! ## The rows of the table (R78) -/

theorem pattern_and_mask : ∀ r ∈ opcodeTable, r.pattern &&& r.format.mask = r.pattern := by decide

/-- The encoder keeps to the table: an instruction's word is its row's pattern OR its fields (R84). -/
theorem encode_make (hr : r ∈ opcodeTable) (o : Operands) : encode (r.make o) = r.pattern ||| r.format.fields o := by
  revert r
  simp [opcodeTable, opcodeRowsControl, opcodeRowsArith, opcodeRowsWide, opcodeRowsMisc, encode, Format.fields,
    BitVec.or_assoc]

theorem wellFormed_make (hr : r ∈ opcodeTable) (hn : o.n ≤ 15) : (r.make o).wellFormed = true := by
  revert r
  simp [opcodeTable, opcodeRowsControl, opcodeRowsArith, opcodeRowsWide, opcodeRowsMisc, Instr.wellFormed, hn]

/-- A row makes its instruction of its format's operands alone. -/
theorem make_keep (hr : r ∈ opcodeTable) (o : Operands) : r.make (r.format.keep o) = r.make o := by
  revert r
  simp [opcodeTable, opcodeRowsControl, opcodeRowsArith, opcodeRowsWide, opcodeRowsMisc, Format.keep]

/-- The operands of an instruction, those its format lacks at 0. -/
def Instr.operands : Instr → Operands
  | .clearDisplay | .ret => ⟨0, 0, 0, 0, 0⟩
  | .jump nnn | .call nnn | .loadI nnn | .jumpV0 nnn => ⟨0, 0, 0, 0, nnn⟩
  | .skipEqVxByte vx nn | .skipNeVxByte vx nn | .loadVxByte vx nn | .addVxByte vx nn | .rndVxByte vx nn =>
    ⟨vx, 0, 0, nn, 0⟩
  | .skipEqVxVy vx vy | .loadVxVy vx vy | .orVxVy vx vy | .andVxVy vx vy | .xorVxVy vx vy | .addVxVy vx vy
  | .subVxVy vx vy | .shrVx vx vy | .subnVxVy vx vy | .shlVx vx vy | .skipNeVxVy vx vy => ⟨vx, vy, 0, 0, 0⟩
  | .displaySprite vx vy n => ⟨vx, vy, n, 0, 0⟩
  | .skipKeyPressed vx | .skipKeyNotPressed vx | .loadVxDt vx | .waitKey vx | .loadDtVx vx | .loadStVx vx | .addIVx vx
  | .loadFontVx vx | .storeBcd vx | .storeRegs vx | .loadRegs vx => ⟨vx, 0, 0, 0, 0⟩

theorem operands_n_le (h : i.wellFormed = true) : i.operands.n ≤ 15 := by
  cases i with
  | displaySprite vx vy n => exact of_decide_eq_true h
  | _ => exact Nat.zero_le 15

/-- The constructors of `Instr` stand in the order of the table, so each has its row at its own index. -/
theorem make_row_of_ctorIdx (i : Instr) : opcodeTable[i.ctorIdx]?.map (·.make i.operands) = some i := by
  cases i <;> rfl

theorem exists_row (i : Instr) : ∃ r ∈ opcodeTable, r.make i.operands = i := by
  obtain ⟨r, hr, hi⟩ := Option.map_eq_some_iff.1 (make_row_of_ctorIdx i)
  exact ⟨r, List.mem_of_getElem? hr, hi⟩

/-! ## The search (R74, R75) -/

/-- Settles O5: two rows of the table differ in a bit that both masks keep. -/
theorem noWordMatchesTwoRows : Obligations.NoWordMatchesTwoRows := by
  have differ : opcodeTable.Pairwise fun r q => r.pattern &&& q.format.mask ≠ q.pattern &&& r.format.mask := by
    decide
  refine differ.imp ?_
  rintro r q hrq w ⟨hr, hq⟩
  apply hrq
  rw [← beq_iff_eq.1 hr, ← beq_iff_eq.1 hq, BitVec.and_assoc, BitVec.and_assoc, BitVec.and_comm r.format.mask]

theorem row_unique (hr : r ∈ opcodeTable) (hq : q ∈ opcodeTable) (hrw : r.matchesWord w = true)
    (hqw : q.matchesWord w = true) : r = q := by
  by_contra hne
  have : Std.Symm fun r q : Row => ∀ w : Word, ¬ (r.matchesWord w = true ∧ q.matchesWord w = true) :=
    ⟨fun _ _ h w hw => h w hw.symm⟩
  exact noWordMatchesTwoRows.forall hr hq hne w ⟨hrw, hqw⟩

theorem firstRow_eq_find? (rows : List Row) (w : Word) : firstRow rows w = rows.find? (·.matchesWord w) := by
  induction rows with
  | nil => rfl
  | cons r rest ih => cases h : r.matchesWord w <;> simp [firstRow, h, ih]

theorem decodeWord_eq_none_iff : decodeWord w = none ↔ ∀ r ∈ opcodeTable, ¬ r.matchesWord w = true := by
  rw [decodeWord, Option.map_eq_none_iff, firstRow_eq_find?, List.find?_eq_none]

theorem decodeWord_eq_some (h : decodeWord w = some i) :
    ∃ r ∈ opcodeTable, r.matchesWord w = true ∧ r.make (operandsOf w) = i := by
  obtain ⟨r, hr, rfl⟩ := Option.map_eq_some_iff.1 h
  rw [firstRow_eq_find?] at hr
  have hm := List.find?_some hr
  exact ⟨r, List.mem_of_find?_eq_some hr, hm, rfl⟩

theorem decodeWord_of_matches (hr : r ∈ opcodeTable) (hm : r.matchesWord w = true) :
    decodeWord w = some (r.make (operandsOf w)) := by
  cases h : decodeWord w with
  | none => exact absurd hm (decodeWord_eq_none_iff.1 h r hr)
  | some i =>
    obtain ⟨q, hq, hqw, rfl⟩ := decodeWord_eq_some h
    rw [row_unique hr hq hm hqw]

/-! ## The round trips (R73, R84) -/

theorem matchesWord_encode_make (hr : r ∈ opcodeTable) (hn : o.n ≤ 15) :
    r.matchesWord (encode (r.make o)) = true := by
  rw [Row.matchesWord, beq_iff_eq, encode_make hr, and_or_right, pattern_and_mask r hr, fields_and_mask _ hn,
    BitVec.or_zero]

theorem encode_make_toNat (hr : r ∈ opcodeTable) (hn : o.n ≤ 15) :
    (encode (r.make o)).toNat = r.pattern.toNat + r.format.value o := by
  have disjoint : r.pattern &&& r.format.fields o = 0#16 := by
    rw [← pattern_and_mask r hr, BitVec.and_assoc, BitVec.and_comm r.format.mask, fields_and_mask _ hn,
      BitVec.and_zero]
  rw [encode_make hr, ← BitVec.add_eq_or_of_and_eq_zero _ _ disjoint, BitVec.toNat_add_of_and_eq_zero disjoint,
    fields_toNat _ hn]

/-- The pattern and the fields of a word are all of it. -/
theorem encode_make_operandsOf (hr : r ∈ opcodeTable) (hm : r.matchesWord w = true) :
    encode (r.make (operandsOf w)) = w := by
  obtain ⟨high, low⟩ := matchesWord_iff.1 hm
  have between := value_operandsOf r.format w
  apply BitVec.eq_of_toNat_eq
  rw [encode_make_toNat hr (operandsOf_n_le w)]
  omega

/-- The fields of an encoding are the operands that it was made of. -/
theorem make_operandsOf_encode (hr : r ∈ opcodeTable) (hn : o.n ≤ 15) :
    r.make (operandsOf (encode (r.make o))) = r.make o := by
  have same : r.format.value (operandsOf (encode (r.make o))) = r.format.value o := by
    obtain ⟨high, low⟩ := matchesWord_iff.1 (matchesWord_encode_make hr hn)
    have sum := encode_make_toNat hr hn
    have between := value_operandsOf r.format (encode (r.make o))
    omega
  rw [← make_keep hr, keep_eq_of_value_eq _ (operandsOf_n_le _) hn same, make_keep hr]

theorem decodeWord_encode (h : i.wellFormed = true) : decodeWord (encode i) = some i := by
  obtain ⟨r, hr, hi⟩ := exists_row i
  have hn := operands_n_le h
  have hd := decodeWord_of_matches hr (matchesWord_encode_make hr hn)
  rwa [make_operandsOf_encode hr hn, hi] at hd

/-- Settles O2: the two bytes make the instruction's word again, which its own row decodes. -/
theorem decodeOfEncodedInstructionGivesItBack : Obligations.DecodeOfEncodedInstructionGivesItBack := by
  intro i rest h
  simp only [encodeBytes, bytesOfWord, List.cons_append, List.nil_append, decode, wordOfBytes_bytesOfWord,
    decodeWord_encode h]

/-- Settles O3: the instruction is made by a row that the word matches, of the word's own fields. -/
theorem encodeOfDecodedWordGivesItBack : Obligations.EncodeOfDecodedWordGivesItBack := by
  intro w i h
  obtain ⟨r, hr, hm, rfl⟩ := decodeWord_eq_some h
  exact ⟨wellFormed_make hr (operandsOf_n_le w), encode_make_operandsOf hr hm⟩

/-! ## The words that decode and those that do not (R76, R79) -/

/-- Settles O4: of the 34 rows only those with the word's top nibble remain, and what they ask of the low bits is what
R79 says. -/
theorem unrecognizedWordsAreExactlyThose : Obligations.UnrecognizedWordsAreExactlyThose := by
  intro w
  simp only [decodeWord_eq_none_iff, matchesWord_iff, opcodeTable, opcodeRowsControl, opcodeRowsArith, opcodeRowsWide,
    opcodeRowsMisc, List.forall_mem_append, List.forall_mem_cons, Format.lowBits, BitVec.ofNat_eq_ofNat,
    BitVec.toNat_ofNat, Nat.reducePow, Nat.reduceMod, Nat.reduceDiv, Nat.mod_one]
  obtain ⟨op, hop⟩ : ∃ op, w.toNat / 4096 = op := ⟨_, rfl⟩
  have op_lt : op < 16 := by omega
  simp only [hop]
  by_cases hop0 : op = 0
  · subst hop0
    have all_low : w.toNat % 4096 = w.toNat := by omega
    simp [all_low]
  by_cases hop8 : op = 8
  · subst hop8
    have low_lt : w.toNat % 16 < 16 := Nat.mod_lt _ (by decide)
    interval_cases w.toNat % 16 <;> simp
  interval_cases op <;> simp at hop0 hop8 ⊢

/-- Settles O1: the five words are looked up. -/
theorem sourceWordsDecodeAsPrinted : Obligations.SourceWordsDecodeAsPrinted :=
  ⟨rfl, rfl, rfl, rfl, rfl⟩

end Sys2Proof
end

/-! # Proofs of the step and control-flow family (40_step_and_control_flow.md)

The step as its phases, the end of a step for the jumps and the skips, and then the statements: those about every
instruction are read off `Effect`. -/

section
namespace Sys2Proof.Machine

open Sys2Proof.Claims

variable {s t u : State} {i : Instr} {w : Word} {vx : RegIx} {nnn : Addr}

/-! ## The phases of a step (R100, R101, R102) -/

/-- A step whose fetched word decodes is its instruction's `exec`; one that goes on opens the next call's key set. -/
theorem step_of_decodes (hr : s.halted = none) (hf : fetch s = .ok w) (hd : decodeWord w = some i) :
    step s = mapNext State.nextCall (exec i s) := by
  simp only [step, hr, hf, orRaise_ok, hd]
  cases exec i s <;> rfl

theorem step_of_fetch_error {k : Fault} (hr : s.halted = none) (hf : fetch s = .error k) : step s = .fault k := by
  simp only [step, hr, hf, orRaise_error]

theorem step_of_unrecognized (hr : s.halted = none) (hf : fetch s = .ok w) (hd : decodeWord w = none) :
    step s = .fault .unrecognizedOpcode := by
  simp only [step, hr, hf, orRaise_ok, hd, raise]

/-- Decoding two bytes is decoding the word they make. -/
theorem decodeWord_of_decode {hi lo : Byte} (h : decode [hi, lo] = .ok (i, [])) :
    decodeWord (wordOfBytes hi lo) = some i := by
  cases hd : decodeWord (wordOfBytes hi lo) with
  | none => simp [decode, hd] at h
  | some j => simpa [decode, hd] using h

/-- Settles O10: the two bytes are the fetched word, and decoding them is decoding it. -/
theorem stepRunsTheDecodedInstruction : Obligations.StepRunsTheDecodedInstruction := by
  intro s hi lo i hr hhi hlo hd
  exact step_of_decodes hr (fetch_of_bytes hhi hlo) (decodeWord_of_decode hd)

/-- Settles O11: either the fetch faults, or its word is no instruction. -/
theorem stepIsFatalWithoutAnInstruction : Obligations.StepIsFatalWithoutAnInstruction := by
  intro s hr
  constructor
  · intro hpc
    exact step_of_fetch_error hr (fetch_high hpc)
  · intro hi lo hhi hlo hd
    exact step_of_unrecognized hr (fetch_of_bytes hhi hlo) hd

/-- Settles O12: on a running engine the operation is its effect, the step from `withArguments`. -/
theorem hostStepIsStepWithItsArguments : Obligations.HostStepIsStepWithItsArguments := by
  intro s k r hr
  exact ⟨apply_running hr (.step k r), rfl, rfl⟩

/-! ## The end of a step (R103, R104) -/

/-- A jump to an address that is known as a natural number. -/
theorem finish_jumpTo_of_toNat {a : Word} {n : Nat} (ha : a.toNat = n)
    (h : n ≠ s.pc.toNat ∨ s.cfg.stuckPcFatal = false) :
    finish (.jumpTo a) s = .next (s.setPc (BitVec.ofNat 16 n)) := by
  subst ha
  rw [finish_jumpTo (h.imp_left (mt (congrArg BitVec.toNat))), BitVec.ofNat_toNat, BitVec.setWidth_eq]

theorem finish_jumpTo_stuck_of_toNat {a : Word} {n : Nat} (ha : a.toNat = n)
    (h : n = s.pc.toNat ∧ s.cfg.stuckPcFatal = true) : finish (.jumpTo a) s = .fault .stuckProgramCounter := by
  obtain ⟨hn, hf⟩ := h
  obtain rfl : a = s.pc := BitVec.eq_of_toNat_eq (ha.trans hn)
  exact finish_jumpTo_self hf

/-- A skip on a condition that holds iff `p` does. -/
theorem finish_skipIf_of_iff {c : Bool} {p : Prop} [Decidable p] (h : c = true ↔ p) :
    finish (skipIf c) s = .next (s.setPc (s.pc + if p then 4 else 2)) := by
  simp only [finish_skipIf, h, apply_ite (s.pc + ·)]

/-- A skip on a condition that fails iff `p` holds. -/
theorem finish_skipIf_of_iff_not {c : Bool} {p : Prop} [Decidable p] (h : c = true ↔ ¬ p) :
    finish (skipIf c) s = .next (s.setPc (s.pc + if p then 2 else 4)) := by
  rw [finish_skipIf_of_iff h, ite_not]

theorem target_skipIf (c : Bool) (p : Word) : (skipIf c).target p = p + 2 ∨ (skipIf c).target p = p + 4 := by
  cases c
  · exact .inl rfl
  · exact .inr rfl

theorem target_skipIf_ne (c : Bool) (p : Word) : (skipIf c).target p ≠ p := by
  cases c
  · exact add_two_ne p
  · exact add_four_ne p

/-! ## Jumps and skips (R107 to R112) -/

/-- Settles O14: both targets are natural numbers below 65536. -/
theorem jumpsGoToTheirTargets : Obligations.JumpsGoToTheirTargets := by
  intro nnn s
  have hjump := addrWord_toNat nnn
  have hsum := addrWord_add_byteWord_toNat nnn (s.reg 0)
  exact ⟨finish_jumpTo_of_toNat hjump, finish_jumpTo_stuck_of_toNat hjump, finish_jumpTo_of_toNat hsum,
    finish_jumpTo_stuck_of_toNat hsum⟩

/-- Settles O18: the tests are the equality of the two bytes, or its negation. -/
theorem registerSkipsSkipOnTheirCondition : Obligations.RegisterSkipsSkipOnTheirCondition := by
  intro vx vy nn s
  exact ⟨finish_skipIf_of_iff beq_iff_eq, finish_skipIf_of_iff_not bne_iff_ne, finish_skipIf_of_iff beq_iff_eq,
    finish_skipIf_of_iff_not bne_iff_ne⟩

/-! ## Call and Return (R105, R106) -/

theorem stackFull_eq_false_iff {depth : Option Nat} {n : Nat} :
    stackFull depth n = false ↔ ∀ d, depth = some d → n < d := by
  cases depth <;> simp [stackFull]

theorem exec_call_of_room (room : stackFull s.cfg.stackDepth s.stack.length = false) :
    exec (.call nnn) s = finish (.jumpTo (addrWord nnn)) (s.setStack ((s.pc + 2) :: s.stack)) := by
  rw [exec, execCall, push_eq room, orRaise_ok]

theorem exec_call_of_full {d : Nat} (hd : s.cfg.stackDepth = some d) (hl : d ≤ s.stack.length) :
    exec (.call nnn) s = .fault .stackOverflow := by
  have full : stackFull s.cfg.stackDepth s.stack.length = true := by rw [hd]; exact decide_eq_true hl
  rw [exec, execCall, push, if_pos full, orRaise_error]

theorem exec_ret_of_cons {a : Word} {rest : List Word} (h : s.stack = a :: rest) :
    exec .ret s = finish (.jumpTo a) (s.setStack rest) := by
  rw [exec, execReturn, pop_cons h, orRaise_ok]

theorem exec_ret_of_nil (h : s.stack = []) : exec .ret s = .fault .stackUnderflow := by
  rw [exec, execReturn, pop_nil h, orRaise_error]

/-- Settles O15: with room the call is a jump after the push, which keeps `pc` and the parameters. -/
theorem callPushesTheReturnAddress : Obligations.CallPushesTheReturnAddress := by
  intro nnn s
  refine ⟨?_, ?_, ?_⟩
  · rintro ⟨room, moves⟩
    rw [exec_call_of_room (stackFull_eq_false_iff.2 room)]
    exact finish_jumpTo_of_toNat (addrWord_toNat nnn) moves
  · rintro ⟨room, self⟩
    rw [exec_call_of_room (stackFull_eq_false_iff.2 room)]
    exact finish_jumpTo_stuck_of_toNat (addrWord_toNat nnn) self
  · intro d hd hl
    exact exec_call_of_full hd hl

/-- Settles O16: on a stack that is not empty the return is a jump after the pop. -/
theorem returnPopsTheReturnAddress : Obligations.ReturnPopsTheReturnAddress := by
  intro s
  refine ⟨?_, exec_ret_of_nil⟩
  intro a rest hs
  rw [exec_ret_of_cons hs]
  constructor
  · exact finish_jumpTo (s := s.setStack rest)
  · rintro ⟨rfl, hf⟩
    exact finish_jumpTo_self (s := s.setStack rest) hf

/-- Settles O17: Call pushes `pc + 2`, which Return pops where the call target is another address. -/
theorem callThenReturnComesBack : Obligations.CallThenReturnComesBack := by
  intro nnn s room h
  obtain ⟨calls, -, -⟩ := callPushesTheReturnAddress nnn s
  have moves : nnn.toNat ≠ s.pc.toNat ∨ s.cfg.stuckPcFatal = false := h.symm.imp_left And.left
  have back : s.pc + 2 ≠ BitVec.ofNat 16 nnn.toNat ∨ s.cfg.stuckPcFatal = false := by
    refine h.symm.imp_left fun ⟨_, hne⟩ heq => hne ?_
    rw [heq, BitVec.toNat_ofNat, Nat.mod_eq_of_lt (by omega)]
  obtain ⟨returns, -⟩ := returnPopsTheReturnAddress
    { s with stack := (s.pc + 2) :: s.stack, pc := BitVec.ofNat 16 nnn.toNat }
  exact ⟨_, calls ⟨room, moves⟩, (returns _ _ rfl).1 back⟩

/-! ## The outcome of every instruction (R103, R104) -/

/-- Settles O49, each effect by its last update. -/
theorem eachInstructionYieldsItsOutcome : Obligations.EachInstructionYieldsItsOutcome := by
  intro i s t h
  cases effect_of_exec h with
  | ret top => exact congrArg List.head? top
  | jump nnn | call nnn => exact addrWord_toNat nnn
  | jumpV0 nnn => exact addrWord_add_byteWord_toNat nnn (s.reg 0)
  | skipEqVxByte | skipNeVxByte | skipEqVxVy | skipNeVxVy | skipKeyPressed | skipKeyNotPressed =>
    exact target_skipIf _ s.pc
  | waitKeyStays => exact .inl rfl
  | waitKeyTakes => exact .inr rfl
  | _ => rfl

/-- Settles O50: the self-check shuts out a jump to its own address, and 2 or 4 more is another address. -/
theorem onlyBlockedWaitKeepsThePc : Obligations.OnlyBlockedWaitKeepsThePc := by
  intro i s t h hf hpc
  cases effect_of_exec h with
  | waitKeyStays vx noKey => exact ⟨⟨vx, rfl⟩, noKey, rfl⟩
  | ret _ moves | jump _ moves | call _ _ moves | jumpV0 _ moves =>
    rcases moves with hne | hlenient
    · exact absurd hpc hne
    · exact absurd (hf.symm.trans hlenient) (by decide)
  | skipEqVxByte | skipNeVxByte | skipEqVxVy | skipNeVxVy | skipKeyPressed | skipKeyNotPressed =>
    exact absurd hpc (target_skipIf_ne _ _)
  | _ => exact absurd hpc (add_two_ne _)

/-! ## Instructions that always go on (60_exceptions.md R200) -/

theorem exec_waitKey_of_noKey (h : keysNow s = 0) : exec (.waitKey vx) s = .next s := by
  rw [exec, execWaitKey, if_pos h, finish_stay]

theorem exec_waitKey_of_key (h : keysNow s ≠ 0) :
    exec (.waitKey vx) s = .next ((s.setReg vx (leastKey (keysNow s))).setPc (s.pc + 2)) := by
  rw [exec, execWaitKey, if_neg h, finish_increment, setReg_pc]

/-- An instruction that accesses neither memory nor the stack and makes no jump ends in an outcome that the self-check
lets pass. -/
theorem exec_next_of_not_canFault (s : State) (h : canFault i = false) : ∃ t, exec i s = .next t := by
  cases i with
  | ret | jump | call | jumpV0 | storeRegs | loadRegs | storeBcd | displaySprite => cases h
  | skipEqVxByte | skipNeVxByte | skipEqVxVy | skipNeVxVy | skipKeyPressed | skipKeyNotPressed =>
    exact ⟨_, finish_skipIf _ s⟩
  | waitKey vx =>
    by_cases hk : keysNow s = 0
    · exact ⟨_, exec_waitKey_of_noKey hk⟩
    · exact ⟨_, exec_waitKey_of_key hk⟩
  | _ => exact ⟨_, finish_increment _⟩

/-- Settles O54: such a step is its instruction's `exec`, which goes on. -/
theorem stepOfAnInstructionWithoutFaultGoesOn : Obligations.StepOfAnInstructionWithoutFaultGoesOn := by
  intro s w i hr hf hd hc
  obtain ⟨t, ht⟩ := exec_next_of_not_canFault s hc
  exact ⟨t.nextCall, by rw [step_of_decodes hr hf hd, ht, mapNext]⟩

/-! ## A blocked WaitKey (R113, R114, 47_keys.md R182) -/

/-- The running engine's next word is a WaitKey. -/
def WaitsAt (vx : RegIx) (s : State) : Prop :=
  s.halted = none ∧ ∃ w, fetch s = .ok w ∧ decodeWord w = some (.waitKey vx)

/-- `t` is `s` up to the timers and the model's own input fields (log 1, log 2). -/
def SameUpToInputs (s t : State) : Prop :=
  t = { s with DT := t.DT, ST := t.ST, keys := t.keys, rnd := t.rnd, steps := t.steps }

theorem SameUpToInputs.trans (hst : SameUpToInputs s t) (htu : SameUpToInputs t u) : SameUpToInputs s u := by
  refine Eq.trans htu ?_
  rw [hst]

/-- The fetch reads neither the timers nor the inputs. -/
theorem SameUpToInputs.fetch_eq (h : SameUpToInputs s t) : fetch t = fetch s := by
  rw [h]
  rfl

theorem SameUpToInputs.waitsAt (h : SameUpToInputs s t) (hs : WaitsAt vx s) : WaitsAt vx t := by
  obtain ⟨hr, hw⟩ := hs
  refine ⟨?_, by rwa [h.fetch_eq]⟩
  rw [h]
  exact hr

/-- A step with no key pressed executes the WaitKey, which changes nothing. -/
theorem WaitsAt.step_noKey (h : WaitsAt vx s) (hk : keysNow s = 0) : step s = .next s.nextCall := by
  obtain ⟨hr, w, hf, hd⟩ := h
  rw [step_of_decodes hr hf hd, exec_waitKey_of_noKey hk, mapNext]

/-- One keyless step or tick leaves the engine where it was. -/
theorem WaitsAt.apply {op : Operation} (h : WaitsAt vx s) (ho : op = .tickTimers ∨ ∃ r, op = .step 0 r) :
    ∃ t, op.apply s = .next t ∧ SameUpToInputs s t := by
  rw [apply_running h.1]
  rcases ho with rfl | ⟨r, rfl⟩
  · exact ⟨tickTimers s, rfl, rfl⟩
  · have called : WaitsAt vx (s.withArguments 0 r) := SameUpToInputs.waitsAt rfl h
    exact ⟨_, called.step_noKey rfl, rfl⟩

/-- Settles O44 by induction on the operations: each leaves an engine that is the same up to its inputs and waits
again. -/
theorem blockedWaitKeyIsIdempotent : Obligations.BlockedWaitKeyIsIdempotent := by
  intro vx ops s hr hw hops
  have waits : WaitsAt vx s := ⟨hr, hw⟩
  clear hr hw
  induction ops generalizing s with
  | nil => exact ⟨trivial, s, run_nil_running waits.1, rfl⟩
  | cons op rest ih =>
    obtain ⟨hop, hrest⟩ := List.forall_mem_cons.1 hops
    obtain ⟨u, hu, same⟩ := waits.apply hop
    obtain ⟨safe, t, ht, same'⟩ := ih u hrest (same.waitsAt waits)
    exact ⟨⟨u, hu, safe⟩, t, (run_cons_next hu rest).trans ht, same.trans same'⟩

end Sys2Proof.Machine
end

/-! # Proofs of the load and store family (41_load_store.md)

A transfer from `I` on goes on where its last byte lies in memory and faults elsewhere; the statements are read off what
a store and a block load leave where they go on. -/

section
namespace Sys2Proof.Machine

variable {s : State} {vx : RegIx} {i : Instr} {a k : Nat} {vs : List Byte}

/-! ## Stores from `I` on (R123, R125, R127) -/

/-- A store whose bytes all lie in memory goes on; `store_next` is the converse. -/
theorem store_eq (hm : effAddr s 0 + vs.length ≤ 4096) :
    orRaise (writeBytes s (effAddr s 0) vs) (finish .increment)
      = .next ((s.setMem (s.mem.writeAll s.cfg.glyphs (effAddr s 0) vs)).setPc (s.pc + 2)) := by
  rw [writeBytes_eq (.inr hm), orRaise_ok, finish_increment, setMem_pc]

theorem store_high (hl : vs.length = k + 1) (hk : 4096 ≤ effAddr s k) :
    orRaise (writeBytes s (effAddr s 0) vs) (finish .increment) = .fault .memoryBoundsFault := by
  have nonempty : vs ≠ [] := by rintro rfl; cases hl
  have outside : 4096 < effAddr s 0 + vs.length := by rw [hl]; exact Nat.lt_succ_of_le hk
  rw [writeBytes_high nonempty outside, orRaise_error]

/-- The addressing mode counts from `I`, so the store's byte `k` is at `I + k`. -/
theorem readByte_store_inside {pc : Word} (hm : effAddr s 0 + vs.length ≤ 4096) (hk : k < vs.length) :
    readByte ((s.setMem (s.mem.writeAll s.cfg.glyphs (effAddr s 0) vs)).setPc pc) (effAddr s k) = .ok vs[k] :=
  (readByte_setPc _ _ _).trans (readByte_writeAll_inside hm hk)

theorem readByte_store_beyond {pc : Word} (hl : vs.length = k + 1) (h : a < effAddr s 0 ∨ effAddr s k < a) :
    readByte ((s.setMem (s.mem.writeAll s.cfg.glyphs (effAddr s 0) vs)).setPc pc) a = readByte s a :=
  (readByte_setPc _ _ _).trans (readByte_writeAll_outside (by rwa [hl]))

/-- Settles O22: the bytes stored are the first registers, in order. -/
theorem storeRegsStoresTheFirstRegisters : Obligations.StoreRegsStoresTheFirstRegisters := by
  intro vx s hm
  have fits : effAddr s 0 + (s.firstRegs vx).length ≤ 4096 := by rwa [firstRegs_length]
  refine ⟨_, exec_storeRegs hm, rfl, ?_, fun a => readByte_store_beyond (firstRegs_length s vx)⟩
  intro k hk
  have hl : k.val < (s.firstRegs vx).length := by rw [firstRegs_length]; exact Nat.lt_succ_of_le hk
  rw [readByte_store_inside fits hl, firstRegs_getElem hk]

/-! ## Decimal digits (R125) -/

/-- 100 times the first byte, 10 times the second and the third make the value, and each is in its digit's range. -/
theorem bcdDigits_spec (v : Byte) : ∃ h d o, bcdDigits v = [h, d, o] ∧
    v.toNat = 100 * h.toNat + 10 * d.toNat + o.toNat ∧ h.toNat ≤ 2 ∧ d.toNat ≤ 9 ∧ o.toNat ≤ 9 := by
  refine ⟨_, _, _, rfl, ?_⟩
  simp only [BitVec.toNat_ofNat]
  omega

theorem exec_storeBcd (hm : effAddr s 2 < 4096) : exec (.storeBcd vx) s
    = .next ((s.setMem (s.mem.writeAll s.cfg.glyphs (effAddr s 0) (bcdDigits (s.reg vx)))).setPc (s.pc + 2)) :=
  store_eq (vs := bcdDigits (s.reg vx)) hm

/-- Settles O24: the bytes stored are the three digits, in order. -/
theorem storeBcdStoresTheDigits : Obligations.StoreBcdStoresTheDigits := by
  intro vx s hm
  obtain ⟨h, d, o, digits, sum, hh, hd, ho⟩ := bcdDigits_spec (s.reg vx)
  have goesOn := exec_storeBcd (vx := vx) hm
  rw [digits] at goesOn
  have fits : effAddr s 0 + [h, d, o].length ≤ 4096 := hm
  refine ⟨_, h, d, o, goesOn, rfl, ?_, ?_, ?_, sum, hh, hd, ho, fun a => readByte_store_beyond rfl⟩
  · exact readByte_store_inside (k := 0) fits (by simp)
  · exact readByte_store_inside (k := 1) fits (by simp)
  · exact readByte_store_inside (k := 2) fits (by simp)

/-! ## Block loads from `I` on (R124, R127) -/

theorem exec_loadRegs (hm : effAddr s vx.val < 4096) : exec (.loadRegs vx) s
    = .next ((s.setFirstRegs ((List.range (vx.val + 1)).map fun k => s.mem.read s.cfg.glyphs (effAddr s k))).setPc
        (s.pc + 2)) := by
  rw [exec, execLoadRegs, readBytes_eq (.inr hm), orRaise_ok, finish_increment, setFirstRegs_pc]
  rfl

theorem exec_loadRegs_high (hm : 4096 ≤ effAddr s vx.val) :
    exec (.loadRegs vx) s = .fault .memoryBoundsFault := by
  have outside : 4096 < effAddr s 0 + (vx.val + 1) := Nat.lt_succ_of_le hm
  rw [exec, execLoadRegs, readBytes_high (Nat.succ_ne_zero _) outside, orRaise_error]

/-- Settles O23: the registers up to `vx` get the bytes read, in order. -/
theorem loadRegsLoadsTheFirstRegisters : Obligations.LoadRegsLoadsTheFirstRegisters := by
  intro vx s hm
  refine ⟨_, exec_loadRegs hm, rfl, fun k hk => ?_, fun k hk => ?_⟩
  · have hkv : k.val < vx.val + 1 := Nat.lt_succ_of_le hk
    have inMemory : effAddr s k.val < 4096 := (Nat.add_le_add_left hk s.I.toNat).trans_lt hm
    rw [readByte_eq inMemory]
    refine congrArg _ ((reg_setFirstRegs s _ k).trans ?_).symm
    simp [hkv]
  · exact reg_setFirstRegs_above (by simpa using hk)

/-! ## Where a transfer faults (60_exceptions.md R204) -/

/-- An instruction that faults under a condition and goes on without it faults exactly there. -/
theorem exec_fault_iff {f : Fault} {p : Prop} (faults : p → exec i s = .fault f)
    (goesOn : ¬ p → ∃ t, exec i s = .next t) : exec i s = .fault f ↔ p := by
  refine ⟨fun h => ?_, faults⟩
  by_contra hp
  obtain ⟨t, ht⟩ := goesOn hp
  cases h.symm.trans ht

/-- Settles O25: each transfer goes on where its last address is below 4096. -/
theorem transfersFaultExactlyOutsideMemory : Obligations.TransfersFaultExactlyOutsideMemory := by
  intro vx s
  refine ⟨exec_fault_iff ?_ ?_, exec_fault_iff ?_ ?_, exec_fault_iff ?_ ?_⟩
  · exact store_high (firstRegs_length s vx)
  · exact fun h => ⟨_, exec_storeRegs (Nat.lt_of_not_le h)⟩
  · exact exec_loadRegs_high
  · exact fun h => ⟨_, exec_loadRegs (Nat.lt_of_not_le h)⟩
  · exact store_high (vs := bcdDigits (s.reg vx)) rfl
  · exact fun h => ⟨_, exec_storeBcd (Nat.lt_of_not_le h)⟩

/-! ## Loads of a register and of `I` (R120, R121, R122, R126) -/

/-- The encoding `6xnn` as a number (30_encoding.md R78 row 8). -/
theorem encode_loadVxByte_eq (vx : RegIx) (nn : Byte) :
    encode (.loadVxByte vx nn) = BitVec.ofNat 16 (0x6000 + 0x100 * vx.val + nn.toNat) := by
  have row : (⟨"LoadVxByte", 0x6000, .xnn, fun o => .loadVxByte o.vx o.nn⟩ : Row) ∈ opcodeTable :=
    List.mem_of_getElem? (i := 7) rfl
  have value : (encode (.loadVxByte vx nn)).toNat = 0x6000 + (256 * vx.val + nn.toNat) :=
    encode_make_toNat (o := ⟨vx, 0, 0, nn, 0⟩) row (Nat.zero_le 15)
  apply BitVec.eq_of_toNat_eq
  rw [value, BitVec.toNat_ofNat]
  omega

/-- Settles O19: the word is the instruction's encoding, and the effect is one register write. -/
theorem loadImmediateWritesTheRegister : Obligations.LoadImmediateWritesTheRegister := by
  intro vx nn s
  constructor
  · rw [← encode_loadVxByte_eq]
    exact decodeWord_encode rfl
  · exact finish_increment (s.setReg vx nn)

/-- Settles O20: the effect is one register write. -/
theorem loadRegisterCopiesTheRegister : Obligations.LoadRegisterCopiesTheRegister := by
  intro vx vy s
  exact finish_increment (s.setReg vx (s.reg vy))

theorem addrWord_eq_ofNat (nnn : Addr) : addrWord nnn = BitVec.ofNat 16 nnn.toNat :=
  (BitVec.ofNat_toNat 16 nnn).symm

/-- Five times a byte is computed in 16 bits (R126). -/
theorem byteWord_mul_five (v : Byte) : byteWord v * 5 = BitVec.ofNat 16 (v.toNat * 5) := by
  rw [BitVec.ofNat_mul, BitVec.ofNat_toNat, byteWord, BitVec.ofNat_eq_ofNat]

/-- Settles O21: both effects are one write of `I`. -/
theorem indexLoadsSetTheIndex : Obligations.IndexLoadsSetTheIndex := by
  intro nnn vx s
  constructor
  · rw [← addrWord_eq_ofNat]
    exact finish_increment (s.setI (addrWord nnn))
  · rw [← byteWord_mul_five]
    exact finish_increment (s.setI (byteWord (s.reg vx) * 5))

end Sys2Proof.Machine
end

/-! # Proofs of the timer family (42_timers.md)

A tick is one update of the fields beside the machine's own work, the timers and the arguments of the coming `Step`.
`SideUpdate.mapNext_exec` says once that an instruction commutes with every such update that keeps the side fields it
uses. -/

section
namespace Sys2Proof.Machine

open Sys2Proof.Claims

variable {s : State} {i : Instr}

/-! ## Updates of the side fields -/

/-- New values of the timers and of the model's own input fields (log 1, log 2), each from its old one. -/
structure SideUpdate where
  DT    : Byte → Byte := id
  ST    : Byte → Byte := id
  keys  : Option KeyMask → Option KeyMask := id
  rnd   : Option Byte → Option Byte := id
  steps : Nat → Nat := id
  drawn : Nat → Nat := id

/-- The state with its side fields updated. -/
def SideUpdate.apply (u : SideUpdate) (s : State) : State :=
  { s with
    DT := u.DT s.DT
    ST := u.ST s.ST
    keys := u.keys s.keys
    rnd := u.rnd s.rnd
    steps := u.steps s.steps
    drawn := u.drawn s.drawn }

/-- The update keeps the side fields that the instruction reads or writes: the timers for the three timer moves
(42_timers.md R130 to R132), the draw for RndVxByte (45_random.md R160), the key set for the instructions that read it
(47_keys.md R183). -/
def SideUpdate.Spares (u : SideUpdate) : Instr → Prop
  | .loadVxDt _ | .loadDtVx _ | .loadStVx _ => u.DT = id ∧ u.ST = id
  | .rndVxByte _ _ => u.rnd = id ∧ u.drawn = id
  | .skipKeyPressed _ | .skipKeyNotPressed _ | .waitKey _ => u.keys = id ∧ u.steps = id
  | _ => True

variable {u : SideUpdate}

/-! ## What each phase makes of an update -/

/-- The self-check reads no side field (40_step_and_control_flow.md R104). -/
theorem mapNext_finish (o : PcOutcome) (s : State) : mapNext u.apply (finish o s) = finish o (u.apply s) := by
  have same : stuck o (u.apply s) = stuck o s := rfl
  rw [finish, finish, same]
  cases stuck o s <;> rfl

theorem mapNext_orRaise {α : Type} {f : State → State} {e : Except Fault α} {g k : α → Result}
    (h : ∀ a, mapNext f (g a) = k a) : mapNext f (orRaise e g) = orRaise e k := by
  cases e with
  | error => rfl
  | ok a => exact h a

theorem orRaise_map {α β : Type} (m : α → β) (e : Except Fault α) (k : β → Result) :
    orRaise (e.map m) k = orRaise e fun a => k (m a) := by
  cases e <;> rfl

theorem readBytes_apply (a n : Nat) : readBytes (u.apply s) a n = readBytes s a n := by
  induction n generalizing a with
  | zero => rfl
  | succ n ih =>
    have same : readByte (u.apply s) a = readByte s a := rfl
    rw [readBytes, readBytes, same, ih]

theorem writeBytes_apply (a : Nat) (vs : List Byte) :
    writeBytes (u.apply s) a vs = (writeBytes s a vs).map u.apply := by
  by_cases inMemory : vs = [] ∨ a + vs.length ≤ 4096
  · rw [writeBytes_eq inMemory, writeBytes_eq inMemory]
    rfl
  · obtain ⟨nonempty, outside⟩ := not_or.1 inMemory
    rw [writeBytes_high nonempty (Nat.lt_of_not_le outside), writeBytes_high nonempty (Nat.lt_of_not_le outside)]
    rfl

theorem push_apply (v : Word) : push (u.apply s) v = (push s v).map u.apply := by
  rw [push, push, apply_ite (Except.map u.apply)]
  rfl

theorem pop_apply : pop (u.apply s) = (pop s).map (Prod.map id u.apply) := by
  cases hs : s.stack with
  | nil =>
    rw [pop_nil hs, pop_nil (s := u.apply s) hs]
    rfl
  | cons a rest =>
    rw [pop_cons hs, pop_cons (s := u.apply s) hs]
    rfl

theorem mapNext_store (a : Nat) (vs : List Byte) :
    mapNext u.apply (orRaise (writeBytes s a vs) (finish .increment))
      = orRaise (writeBytes (u.apply s) a vs) (finish .increment) := by
  rw [writeBytes_apply, orRaise_map]
  exact mapNext_orRaise (mapNext_finish .increment)

/-! ## Every instruction -/

/-- An instruction commutes with an update that keeps the side fields it uses, and faults where it faults. -/
theorem SideUpdate.mapNext_exec (h : u.Spares i) (s : State) : mapNext u.apply (exec i s) = exec i (u.apply s) := by
  cases i with
  | ret =>
    rw [exec, exec, execReturn, execReturn, pop_apply, orRaise_map]
    exact mapNext_orRaise fun p => mapNext_finish (.jumpTo p.1) p.2
  | call nnn =>
    have same : (u.apply s).pc = s.pc := rfl
    rw [exec, exec, execCall, execCall, same, push_apply, orRaise_map]
    exact mapNext_orRaise (mapNext_finish (.jumpTo (addrWord nnn)))
  | storeRegs vx => exact mapNext_store (effAddr s 0) (s.firstRegs vx)
  | storeBcd vx => exact mapNext_store (effAddr s 0) (bcdDigits (s.reg vx))
  | loadRegs vx =>
    rw [exec, exec, execLoadRegs, execLoadRegs, readBytes_apply]
    exact mapNext_orRaise fun bs => mapNext_finish .increment (s.setFirstRegs bs)
  | displaySprite vx vy n =>
    rw [exec, exec, execDisplaySprite, execDisplaySprite, readBytes_apply]
    exact mapNext_orRaise fun rows => mapNext_orRaise fun p =>
      mapNext_finish .increment ((s.setFb p.1).setFlag (flagByte p.2))
  | loadVxDt | loadDtVx | loadStVx | rndVxByte | skipKeyPressed | skipKeyNotPressed =>
    cases u
    obtain ⟨rfl, rfl⟩ := h
    exact mapNext_finish _ _
  | waitKey vx =>
    have same : keysNow (u.apply s) = keysNow s := by
      cases u
      obtain ⟨rfl, rfl⟩ := h
      rfl
    by_cases noKey : keysNow s = 0
    · rw [exec_waitKey_of_noKey noKey, exec_waitKey_of_noKey (same.trans noKey), mapNext]
    · rw [exec_waitKey_of_key noKey, exec_waitKey_of_key (by rwa [same]), same]
      rfl
  | _ => exact mapNext_finish _ _

/-! ## The timers (42_timers.md) -/

/-- Both timers counted down, and nothing else (R133). -/
def tickUpdate : SideUpdate where
  DT := countDown
  ST := countDown

theorem tickUpdate_apply : tickUpdate.apply = tickTimers := rfl

/-- Settles O28: a tick spares every instruction but the three timer moves. -/
theorem ticksCommuteWithOtherInstructions : Obligations.TicksCommuteWithOtherInstructions := by
  intro i s notMove
  have spares : tickUpdate.Spares i := by
    cases i with
    | loadVxDt vx => exact absurd rfl (notMove vx).1
    | loadDtVx vx => exact absurd rfl (notMove vx).2.1
    | loadStVx vx => exact absurd rfl (notMove vx).2.2
    | rndVxByte | skipKeyPressed | skipKeyNotPressed | waitKey => exact ⟨rfl, rfl⟩
    | _ => trivial
  rw [← tickUpdate_apply]
  exact (SideUpdate.mapNext_exec spares s).symm

/-- Settles O26: each effect is one write of the byte moved. -/
theorem timerMovesCopyTheByte : Obligations.TimerMovesCopyTheByte := by
  intro vx s
  exact ⟨finish_increment (s.setReg vx s.DT), finish_increment (s.setDT (s.reg vx)),
    finish_increment (s.setST (s.reg vx))⟩

/-- One count down as a natural number: it stops at 0 and does not wrap. -/
theorem countDown_eq (v : Byte) : countDown v = BitVec.ofNat 8 (if v.toNat > 0 then v.toNat - 1 else 0) := by
  by_cases hv : v = 0
  · subst hv
    rfl
  · have positive : v.toNat > 0 := by bv_omega
    rw [countDown, if_neg hv, if_pos positive]
    bv_omega

/-- Settles O27: on a running engine the tick is its effect. -/
theorem tickCountsEachTimerDown : Obligations.TickCountsEachTimerDown := by
  intro s hr
  rw [← countDown_eq, ← countDown_eq]
  exact apply_running hr .tickTimers

end Sys2Proof.Machine
end

/-! # Proofs of the arithmetic family (43_arithmetic.md)

Each instruction is one register update, so `finish_increment` gives its next state. What is left is arithmetic: the
machine's words and flag bytes written as natural numbers. -/

section
namespace Sys2Proof.Machine

/-! ## Wrapped results and flags as natural numbers -/

/-- A byte sum is the sum modulo 256 (R140, R141). -/
theorem byte_add_eq_ofNat (a b : Byte) : a + b = BitVec.ofNat 8 ((a.toNat + b.toNat) % 256) := by bv_omega

/-- A byte difference is the difference modulo 256, with 256 added so that it is no negative number (R142, R143). -/
theorem byte_sub_eq_ofNat (a b : Byte) : a - b = BitVec.ofNat 8 ((a.toNat + 256 - b.toNat) % 256) := by bv_omega

/-- The index plus a byte is the sum modulo 65536 (R144, D9). -/
theorem word_add_byteWord_eq_ofNat (w : Word) (v : Byte) :
    w + byteWord v = BitVec.ofNat 16 ((w.toNat + v.toNat) % 65536) := by
  have unwidened : (byteWord v).toNat = v.toNat := BitVec.toNat_setWidth_of_le (by decide)
  bv_omega

theorem flagByte_decide (p : Prop) [Decidable p] : flagByte (decide p) = if p then 1 else 0 := by
  simp only [flagByte, decide_eq_true_eq]

theorem carryFlag_eq_ite (a b : Byte) : carryFlag a b = if b.toNat > 255 - a.toNat then 1 else 0 :=
  flagByte_decide _

theorem exceedsFlag_eq_ite (a b : Byte) : exceedsFlag a b = if a.toNat > b.toNat then 1 else 0 :=
  flagByte_decide _

/-! ## The instructions -/

/-- Settles O29: the effect is one register write, of the wrapped sum. -/
theorem addImmediateWrapsWithoutFlag : Obligations.AddImmediateWrapsWithoutFlag := by
  intro vx nn s
  rw [← byte_add_eq_ofNat]
  exact finish_increment (s.setReg vx (s.reg vx + nn))

/-- Settles O30: the effect is the flag and then the sum, both of the old registers. -/
theorem addRegistersCarriesThenSums : Obligations.AddRegistersCarriesThenSums := by
  intro vx vy s
  rw [← carryFlag_eq_ite, ← byte_add_eq_ofNat]
  exact finish_increment (s.setFlagThenReg (carryFlag (s.reg vx) (s.reg vy)) vx (s.reg vx + s.reg vy))

/-- Settles O31: both effects are the flag and then the difference; Subn swaps the operands. -/
theorem subtractionsCompareThenSubtract : Obligations.SubtractionsCompareThenSubtract := by
  intro vx vy s
  constructor
  · rw [← exceedsFlag_eq_ite, ← byte_sub_eq_ofNat]
    exact finish_increment (s.setFlagThenReg (exceedsFlag (s.reg vx) (s.reg vy)) vx (s.reg vx - s.reg vy))
  · rw [← exceedsFlag_eq_ite, ← byte_sub_eq_ofNat]
    exact finish_increment (s.setFlagThenReg (exceedsFlag (s.reg vy) (s.reg vx)) vx (s.reg vy - s.reg vx))

/-- Settles O32: the effect is one write of `I`. -/
theorem addToIndexWrapsAtSixteenBits : Obligations.AddToIndexWrapsAtSixteenBits := by
  intro vx s
  rw [← word_add_byteWord_eq_ofNat]
  exact finish_increment (s.setI (s.I + byteWord (s.reg vx)))

end Sys2Proof.Machine
end

/-! # Proofs of the bit-operation family (44_bitops.md)

Each instruction is one register update, so `finish_increment` gives its next state. The logic operations are read off
bit by bit; the shifts and their flag bytes are written as natural numbers. -/

section
namespace Sys2Proof.Machine

/-! ## Shifted bytes and shift flags as natural numbers -/

/-- The byte shifted right is half of it, rounded down (R153). -/
theorem byte_shiftRight_one_eq_ofNat (v : Byte) : v >>> 1 = BitVec.ofNat 8 (v.toNat / 2) := by bv_omega

/-- The byte shifted left is twice it modulo 256 (R154). -/
theorem byte_shiftLeft_one_eq_ofNat (v : Byte) : v <<< 1 = BitVec.ofNat 8 (v.toNat * 2 % 256) := by bv_omega

/-- The flag of ShrVx is the remainder modulo 2 (R153). -/
theorem shrFlag_eq_ofNat (v : Byte) : shrFlag v = BitVec.ofNat 8 (v.toNat % 2) := by
  have masked : (shrFlag v).toNat = v.toNat % 2 := by
    rw [shrFlag, BitVec.toNat_and]
    exact Nat.and_one_is_mod v.toNat
  bv_omega

theorem flagByte_eq_ofNat (c : Bool) : flagByte c = BitVec.ofNat 8 c.toNat := by
  cases c <;> rfl

/-- Bit 7 is the quotient by 128, which for a byte is 0 or 1. -/
theorem toNat_highBit (v : Byte) : (v.toNat.testBit 7).toNat = v.toNat / 128 := by
  rw [Nat.toNat_testBit]
  have bound : v.toNat < 256 := v.isLt
  omega

/-- The normalized flag of ShlVx is bit 7 as a number (R154). -/
theorem shlFlag_normalized_eq_ofNat (v : Byte) : shlFlag .normalized v = BitVec.ofNat 8 (v.toNat / 128) := by
  rw [← toNat_highBit]
  exact flagByte_eq_ofNat (v.getLsbD 7)

/-- The raw flag of ShlVx is bit 7 in its place (R154, D4). -/
theorem shlFlag_raw_eq_ofNat (v : Byte) : shlFlag .raw v = BitVec.ofNat 8 (v.toNat / 128 * 128) := by
  have masked : (shlFlag .raw v).toNat = v.toNat / 128 * 128 := by
    rw [← toNat_highBit]
    exact (BitVec.toNat_and v 0x80).trans (Nat.and_two_pow v.toNat 7)
  bv_omega

/-! ## The instructions -/

/-- Settles O33: each effect is one register write, and the bits of its byte are those of the bitwise operation. -/
theorem logicOperationsCombineBitByBit : Obligations.LogicOperationsCombineBitByBit := by
  intro vx vy s
  exact ⟨s.reg vx ||| s.reg vy, s.reg vx &&& s.reg vy, s.reg vx ^^^ s.reg vy, finish_increment _,
    finish_increment _, finish_increment _, fun _ _ => ⟨BitVec.getLsbD_or, BitVec.getLsbD_and, BitVec.getLsbD_xor⟩⟩

/-- Settles O34: the effect is the flag and then the half, both of the old register; `vy` is not read. -/
theorem shiftRightMovesTheLowBitToTheFlag : Obligations.ShiftRightMovesTheLowBitToTheFlag := by
  intro vx vy s
  rw [← shrFlag_eq_ofNat, ← byte_shiftRight_one_eq_ofNat]
  exact finish_increment (s.setFlagThenReg (shrFlag (s.reg vx)) vx (s.reg vx >>> 1))

/-- Settles O35: the effect is the flag and then the double, both of the old register; the two values of `SHIFT_FLAG`
differ in the flag byte alone. -/
theorem shiftLeftMovesTheHighBitToTheFlag : Obligations.ShiftLeftMovesTheHighBitToTheFlag := by
  intro vx vy s
  have effect : exec (.shlVx vx vy) s = _ :=
    finish_increment (s.setFlagThenReg (shlFlag s.cfg.shiftFlag (s.reg vx)) vx (s.reg vx <<< 1))
  rw [← byte_shiftLeft_one_eq_ofNat, ← shlFlag_normalized_eq_ofNat, ← shlFlag_raw_eq_ofNat]
  constructor
  · intro normalized
    rwa [normalized] at effect
  · intro raw
    rwa [raw] at effect

end Sys2Proof.Machine
end

/-! # Proofs of the random family (45_random.md)

A new draw is one more update of the side fields, so `SideUpdate.mapNext_exec` says that no instruction but RndVxByte
reads or consumes it. -/

section
namespace Sys2Proof.Machine

/-- Another draw supplied and another draw counter (log 2), and nothing else. -/
def drawUpdate (r : Option Byte) (d : Nat) : SideUpdate where
  rnd := fun _ => r
  drawn := fun _ => d

theorem drawUpdate_apply (r : Option Byte) (d : Nat) (s : State) :
    (drawUpdate r d).apply s = { s with rnd := r, drawn := d } := rfl

/-- Only RndVxByte uses the draw fields (R160). -/
theorem drawUpdate_spares {i : Instr} (r : Option Byte) (d : Nat) (notRnd : ∀ vx nn, i ≠ .rndVxByte vx nn) :
    (drawUpdate r d).Spares i := by
  cases i with
  | rndVxByte vx nn => exact absurd rfl (notRnd vx nn)
  | loadVxDt | loadDtVx | loadStVx | skipKeyPressed | skipKeyNotPressed | waitKey => exact ⟨rfl, rfl⟩
  | _ => trivial

/-- Settles O37: another draw spares every instruction but RndVxByte. -/
theorem drawsAreReadOnlyByRnd : Obligations.DrawsAreReadOnlyByRnd := by
  intro i s r d notRnd
  simp only [← drawUpdate_apply]
  exact (SideUpdate.mapNext_exec (drawUpdate_spares r d notRnd) s).symm

/-- Settles O36: the effect is one register write, of the masked draw, and the consumption of the draw. -/
theorem rndMasksTheDraw : Obligations.RndMasksTheDraw := by
  intro vx nn s
  constructor
  · intro r supplied
    rw [drawNow, supplied, Option.getD_some]
  · exact finish_increment ((s.setReg vx (drawNow s &&& nn)).consumeDraw)

end Sys2Proof.Machine
end

/-! # Proofs of the display family (46_display.md)

`pixel_blitBits` speaks of one row, whose positions are consecutive. Here the whole sprite is one list of flips at
positions that are distinct on the ring; what a draw does to every pixel and to `VF` is an induction over that list, and
the statements are read off it. -/

section
namespace Sys2Proof.Machine

open Sys2Proof.Claims

variable {s : State} {vx vy : RegIx} {n : Nat}

/-! ## A list of flips (R166, R167) -/

/-- One step of a blit: XOR the bit onto the pixel at its position, and note whether that pixel went from 1 to 0. -/
def flipBit (acc : Display × Bool) (f : Bool × Nat) : Display × Bool :=
  (xorPixel acc.1 f.2 f.1, acc.2 || (pixel acc.1 f.2 && f.1))

/-- Flips at two positions that reach different pixels (R166). -/
def Apart (f g : Bool × Nat) : Prop := f.2 % 2048 ≠ g.2 % 2048

theorem pixel_flipBit_other (acc : Display × Bool) {f : Bool × Nat} {q : Nat} (h : f.2 % 2048 ≠ q % 2048) :
    pixel (flipBit acc f).1 q = pixel acc.1 q := by
  rw [flipBit, pixel_xorPixel, if_neg h.symm]

theorem pixel_flipBit_self (acc : Display × Bool) (f : Bool × Nat) :
    pixel (flipBit acc f).1 f.2 = (pixel acc.1 f.2 != f.1) := by
  rw [flipBit, pixel_xorPixel, if_pos rfl, Bool.bne_eq_xor]

theorem pixel_flips_other {fs : List (Bool × Nat)} (acc : Display × Bool) {q : Nat}
    (h : ∀ f ∈ fs, f.2 % 2048 ≠ q % 2048) : pixel (fs.foldl flipBit acc).1 q = pixel acc.1 q := by
  induction fs generalizing acc with
  | nil => rfl
  | cons f fs ih =>
    obtain ⟨hf, hfs⟩ := List.forall_mem_cons.1 h
    rw [List.foldl_cons, ih _ hfs, pixel_flipBit_other acc hf]

theorem pixel_flips_mem {fs : List (Bool × Nat)} (acc : Display × Bool) (apart : fs.Pairwise Apart)
    {f : Bool × Nat} (h : f ∈ fs) : pixel (fs.foldl flipBit acc).1 f.2 = (pixel acc.1 f.2 != f.1) := by
  induction fs generalizing acc with
  | nil => cases h
  | cons g fs ih =>
    obtain ⟨hg, hfs⟩ := List.pairwise_cons.1 apart
    rw [List.foldl_cons]
    rcases List.mem_cons.1 h with rfl | h
    · rw [pixel_flips_other _ fun g hgs => (hg g hgs).symm, pixel_flipBit_self]
    · rw [ih _ hfs h, pixel_flipBit_other acc (hg f h)]

/-- Flips apart from one another collide iff one of them meets a pixel that was set before the first (R168). -/
theorem collision_flips {fs : List (Bool × Nat)} (acc : Display × Bool) (apart : fs.Pairwise Apart) :
    (fs.foldl flipBit acc).2 = (acc.2 || fs.any fun f => f.1 && pixel acc.1 f.2) := by
  induction fs generalizing acc with
  | nil => simp
  | cons g fs ih =>
    obtain ⟨hg, hfs⟩ := List.pairwise_cons.1 apart
    have same : (fs.any fun f => f.1 && pixel (flipBit acc g).1 f.2) = fs.any fun f => f.1 && pixel acc.1 f.2 := by
      rw [Bool.eq_iff_iff, List.any_eq_true, List.any_eq_true]
      exact exists_congr fun f => and_congr_right fun hf => by rw [pixel_flipBit_other acc (hg f hf)]
    rw [List.foldl_cons, ih _ hfs, same, List.any_cons, flipBit, Bool.or_assoc, Bool.and_comm]

/-! ## A blit as a list of flips (R168) -/

theorem blitBits_eq_foldl (p : Nat) (bs : List Bool) (acc : Display × Bool) :
    blitBits p bs acc = (bs.zipIdx p).foldl flipBit acc := by
  induction bs generalizing p acc with
  | nil => rfl
  | cons b bs ih => exact ih (p + 1) (flipBit acc (b, p))

/-- The flips of the rows of a sprite, the first of them row `y` of the display. -/
def rowsFlips (x0 y : Nat) (rows : List Byte) : List (Bool × Nat) :=
  (rows.zipIdx y).flatMap fun r => (rowBits r.1).zipIdx (r.2 * 64 + x0)

theorem blitRows_ok {x0 y : Nat} {rows : List Byte} {acc p : Display × Bool} (h : blitRows x0 y rows acc = .ok p) :
    p = (rowsFlips x0 y rows).foldl flipBit acc := by
  induction rows generalizing y acc with
  | nil => cases h; rfl
  | cons r rest ih =>
    rw [blitRows] at h
    split at h
    · rw [ih h, blitBits_eq_foldl, ← List.foldl_append]
      rfl
    · cases h

theorem zipIdx_map_range {α : Type} (f : Nat → α) (n k : Nat) :
    ((List.range n).map f).zipIdx k = (List.range n).map fun i => (f i, k + i) := by
  apply List.ext_getElem <;> simp

/-! ## The flips of a DisplaySprite (R171) -/

/-- The sprite bytes that DisplaySprite reads. -/
def spriteRows (s : State) (n : Nat) : List Byte := (List.range n).map fun r => s.mem.read s.cfg.glyphs (effAddr s r)

@[simp] theorem spriteRows_length (s : State) (n : Nat) : (spriteRows s n).length = n := by simp [spriteRows]

/-- The bits of the sprite with their linear positions, row by row. -/
def spriteFlips (s : State) (vx vy : RegIx) (n : Nat) : List (Bool × Nat) :=
  (List.range n).flatMap fun r => (List.range 8).map fun b =>
    (spriteBit s r b, (s.x[vy].toNat + r) * 64 + s.x[vx].toNat + b)

theorem rowsFlips_spriteRows (s : State) (vx vy : RegIx) (n : Nat) :
    rowsFlips (s.reg vx).toNat (s.reg vy).toNat (spriteRows s n) = spriteFlips s vx vy n := by
  simp only [rowsFlips, spriteRows, rowBits, zipIdx_map_range, List.flatMap_map]
  rfl

theorem mem_spriteFlips {r b : Nat} (hr : r < n) (hb : b < 8) :
    (spriteBit s r b, (s.x[vy].toNat + r) * 64 + s.x[vx].toNat + b) ∈ spriteFlips s vx vy n :=
  List.mem_flatMap.2 ⟨r, List.mem_range.2 hr, List.mem_map.2 ⟨b, List.mem_range.2 hb, rfl⟩⟩

/-- A sprite of at most 32 rows flips no pixel twice: its rows are 64 positions apart, 8 long, and end within one round
of the ring. -/
theorem spriteFlips_apart (s : State) (vx vy : RegIx) (h : n ≤ 32) : (spriteFlips s vx vy n).Pairwise Apart := by
  refine List.pairwise_flatMap.2 ⟨fun r _ => ?_, List.pairwise_lt_range.imp_of_mem ?_⟩
  · refine List.pairwise_map.2 (List.pairwise_lt_range.imp_of_mem fun {b c} _ hc hbc => ?_)
    have := List.mem_range.1 hc
    simp only [Apart]
    omega
  · intro r q _ hq hrq f hf g hg
    obtain ⟨b, hb, rfl⟩ := List.mem_map.1 hf
    obtain ⟨c, hc, rfl⟩ := List.mem_map.1 hg
    rw [List.mem_range] at hq hb hc
    simp only [Apart]
    omega

theorem rows_le_of_fits (fits : SpriteFits s vx vy n) : n ≤ 32 := by
  obtain rfl | ⟨-, -, hy⟩ := fits <;> omega

/-- The display after the sprite is drawn, and whether the draw collided. -/
def blitSprite (s : State) (vx vy : RegIx) (n : Nat) : Display × Bool :=
  (spriteFlips s vx vy n).foldl flipBit (s.fb, false)

theorem writeSprite_eq (fits : SpriteFits s vx vy n) :
    writeSprite (s.reg vx).toNat (s.reg vy).toNat (spriteRows s n) s.fb = .ok (blitSprite s vx vy n) := by
  have onDisplay : spriteRows s n = [] ∨
      ((s.reg vx).toNat < 64 ∧ (s.reg vy).toNat + (spriteRows s n).length ≤ 32) := by
    rw [spriteRows_length]
    exact fits.imp (by rintro rfl; rfl) And.right
  obtain ⟨p, drawn⟩ := (blitRows_ok_iff _ _ _ (s.fb, false)).2 onDisplay
  rw [writeSprite, drawn, blitRows_ok drawn, rowsFlips_spriteRows, blitSprite]

/-- Whether a set bit of the sprite meets a set pixel (R168). -/
def collides (s : State) (vx vy : RegIx) (n : Nat) : Bool :=
  (List.range n).any fun r => (List.range 8).any fun b => spriteBit s r b && pixel s.fb (spritePos s vx vy r b)

theorem collides_iff : collides s vx vy n = true ↔
    ∃ r < n, ∃ b < 8, spriteBit s r b = true ∧ pixel s.fb (spritePos s vx vy r b) = true := by
  simp [collides]

theorem blitSprite_collision (h : n ≤ 32) : (blitSprite s vx vy n).2 = collides s vx vy n := by
  rw [blitSprite, collision_flips _ (spriteFlips_apart s vx vy h), Bool.false_or, spriteFlips]
  simp only [List.any_flatMap, List.any_map, Function.comp_def, collides, spritePos, pixel_mod]

theorem pixel_blitSprite_under (h : n ≤ 32) {r b : Nat} (hr : r < n) (hb : b < 8) :
    pixel (blitSprite s vx vy n).1 (spritePos s vx vy r b)
      = (pixel s.fb (spritePos s vx vy r b) != spriteBit s r b) := by
  have flipped := pixel_flips_mem (s.fb, false) (spriteFlips_apart s vx vy h) (mem_spriteFlips hr hb)
  rwa [spritePos, pixel_mod, pixel_mod, blitSprite]

theorem pixel_blitSprite_outside {k : Nat} (hk : k < 2048)
    (outside : ∀ r < n, ∀ b < 8, spritePos s vx vy r b ≠ k) :
    pixel (blitSprite s vx vy n).1 k = pixel s.fb k := by
  refine pixel_flips_other (s.fb, false) fun f hf => ?_
  obtain ⟨r, hr, hf⟩ := List.mem_flatMap.1 hf
  obtain ⟨b, hb, rfl⟩ := List.mem_map.1 hf
  rw [Nat.mod_eq_of_lt hk]
  exact outside r (List.mem_range.1 hr) b (List.mem_range.1 hb)

/-- The state after a draw that left the display `fb` and the flag `flag`: all that DisplaySprite writes (R171). -/
def State.afterDraw (s : State) (fb : Display) (flag : Byte) : State :=
  { s with fb := fb, x := s.x.set 15 flag, pc := s.pc + 2 }

/-- A sprite that fits is drawn, and its collision goes to `VF` (R171). -/
theorem exec_displaySprite (fits : SpriteFits s vx vy n) : exec (.displaySprite vx vy n) s
    = .next (s.afterDraw (blitSprite s vx vy n).1 (flagByte (collides s vx vy n))) := by
  have read : readBytes s (effAddr s 0) n = .ok (spriteRows s n) := readBytes_eq (fits.imp_right And.left)
  rw [exec, execDisplaySprite, read, orRaise_ok, writeSprite_eq fits, orRaise_ok, finish_increment,
    blitSprite_collision (rows_le_of_fits fits)]
  rfl

/-- Settles O39: a sprite that fits is drawn, and its flips meet no pixel twice. -/
theorem displaySpriteXorsAndReportsCollision : Obligations.DisplaySpriteXorsAndReportsCollision := by
  intro vx vy n s fits
  exact ⟨_, exec_displaySprite fits, rfl, fun r hr b hb => pixel_blitSprite_under (rows_le_of_fits fits) hr hb,
    fun k hk => pixel_blitSprite_outside hk⟩

/-! ## The faults of DisplaySprite (R169, R171) -/

theorem writeSprite_offDisplay {x0 y0 : Nat} {rows : List Byte} (fb : Display) (nonempty : rows ≠ [])
    (h : 64 ≤ x0 ∨ 32 < y0 + rows.length) : writeSprite x0 y0 rows fb = .error .displayRangeFault := by
  cases e : writeSprite x0 y0 rows fb with
  | error k => rw [blitRows_fault e]
  | ok p =>
    obtain h' | ⟨hx, hy⟩ := (blitRows_ok_iff x0 y0 rows (fb, false)).1 ⟨p, e⟩
    · exact absurd h' nonempty
    · omega

/-- Settles O40: the read comes first and faults where the last sprite byte is outside memory; the blit of the bytes
read faults where a row's origin is off the display. -/
theorem displaySpriteFaultsInOrder : Obligations.DisplaySpriteFaultsInOrder := by
  intro vx vy n s hn
  constructor
  · intro outside
    have beyond : 4096 < effAddr s 0 + n := by rw [effAddr]; omega
    rw [exec, execDisplaySprite, readBytes_high (by omega) beyond, orRaise_error]
  · intro inside off
    have inMemory : effAddr s 0 + n ≤ 4096 := by rw [effAddr]; omega
    have read : readBytes s (effAddr s 0) n = .ok (spriteRows s n) := readBytes_eq (.inr inMemory)
    have nonempty : spriteRows s n ≠ [] := List.ne_nil_of_length_pos (by rwa [spriteRows_length])
    have offDisplay : writeSprite (s.reg vx).toNat (s.reg vy).toNat (spriteRows s n) s.fb = .error .displayRangeFault :=
      writeSprite_offDisplay s.fb nonempty (by rwa [spriteRows_length])
    rw [exec, execDisplaySprite, read, orRaise_ok, offDisplay, orRaise_error]

/-! ## Drawing twice (R171) -/

/-- A draw without a collision keeps every coordinate, `VF` included where it held 0. -/
theorem afterDraw_x_of_zero {v : RegIx} (fb : Display) (h : v = 15 → s.x[15] = 0) :
    (s.afterDraw fb 0).x[v] = s.x[v] := by
  by_cases hv : v = 15
  · subst hv
    exact (reg_setReg_self s 15 0).trans (h rfl).symm
  · exact reg_setReg_other s 15 v 0 (Ne.symm hv)

/-- The display shows the sprite and nothing else: its bits at its positions, and 0 at every other. -/
def ShowsSprite (fb : Display) (s : State) (vx vy : RegIx) (n : Nat) : Prop :=
  (∀ r < n, ∀ b < 8, pixel fb (spritePos s vx vy r b) = spriteBit s r b) ∧
  (∀ k < 2048, (∀ r < n, ∀ b < 8, spritePos s vx vy r b ≠ k) → pixel fb k = false)

/-- A sprite that is drawn on a cleared display clears `VF`, and the display shows it. -/
theorem exec_displaySprite_of_cleared (fits : SpriteFits s vx vy n) (cleared : ∀ k < 2048, pixel s.fb k = false) :
    ∃ fb, exec (.displaySprite vx vy n) s = .next (s.afterDraw fb 0) ∧ ShowsSprite fb s vx vy n := by
  have clearedAt : ∀ r b, pixel s.fb (spritePos s vx vy r b) = false :=
    fun r b => cleared _ (Nat.mod_lt _ (by decide))
  have noCollision : collides s vx vy n = false := by
    rw [Bool.eq_false_iff, Ne, collides_iff]
    rintro ⟨r, -, b, -, -, lit⟩
    exact Bool.false_ne_true ((clearedAt r b).symm.trans lit)
  have goesOn := exec_displaySprite fits
  rw [noCollision] at goesOn
  refine ⟨_, goesOn, fun r hr b hb => ?_, fun k hk outside => ?_⟩
  · rw [pixel_blitSprite_under (rows_le_of_fits fits) hr hb, clearedAt, Bool.false_bne]
  · rw [pixel_blitSprite_outside hk outside, cleared k hk]

/-- A non-zero sprite that is drawn on the display that shows it sets `VF` and clears the display. -/
theorem exec_displaySprite_of_shown (fits : SpriteFits s vx vy n) (shown : ShowsSprite s.fb s vx vy n)
    (nonzero : ∃ r < n, ∃ b < 8, spriteBit s r b = true) :
    ∃ fb, exec (.displaySprite vx vy n) s = .next (s.afterDraw fb 1) ∧ ∀ k < 2048, pixel fb k = false := by
  obtain ⟨under, outside⟩ := shown
  have collision : collides s vx vy n = true := by
    obtain ⟨r, hr, b, hb, bit⟩ := nonzero
    exact collides_iff.2 ⟨r, hr, b, hb, bit, (under r hr b hb).trans bit⟩
  have goesOn := exec_displaySprite fits
  rw [collision] at goesOn
  refine ⟨_, goesOn, fun k hk => ?_⟩
  by_cases h : ∀ r < n, ∀ b < 8, spritePos s vx vy r b ≠ k
  · rw [pixel_blitSprite_outside hk h, outside k hk h]
  · push Not at h
    obtain ⟨r, hr, b, hb, rfl⟩ := h
    rw [pixel_blitSprite_under (rows_le_of_fits fits) hr hb, under r hr b hb, bne_self_eq_false]

/-- Settles O41: the second draw has the sprite of the first, and finds its pixels on the display. -/
theorem drawingTwiceRestoresTheDisplay : Obligations.DrawingTwiceRestoresTheDisplay := by
  intro vx vy n s fits cleared flagZero nonzero
  obtain ⟨fb, first, shown⟩ := exec_displaySprite_of_cleared fits cleared
  have column : (s.afterDraw fb 0).x[vx] = s.x[vx] := afterDraw_x_of_zero fb fun h => flagZero (.inl h)
  have row : (s.afterDraw fb 0).x[vy] = s.x[vy] := afterDraw_x_of_zero fb fun h => flagZero (.inr h)
  have samePos : spritePos (s.afterDraw fb 0) vx vy = spritePos s vx vy := by
    unfold spritePos
    rw [column, row]
  have stillFits : SpriteFits (s.afterDraw fb 0) vx vy n := by
    rw [SpriteFits, column, row]
    exact fits
  have stillShown : ShowsSprite fb (s.afterDraw fb 0) vx vy n := by
    rw [ShowsSprite, samePos]
    exact shown
  obtain ⟨fb', second, restored⟩ := exec_displaySprite_of_shown stillFits stillShown nonzero
  exact ⟨_, _, first, second, Vector.getElem_set_self _, Vector.getElem_set_self _, shown.1, restored⟩

/-! ## ClearDisplay (R170) -/

/-- Settles O38: the effect is the cleared buffer. -/
theorem clearDisplayZeroesEveryPixel : Obligations.ClearDisplayZeroesEveryPixel :=
  ⟨sourceWordsDecodeAsPrinted.1, fun s =>
    ⟨_, finish_increment (s.setFb clearedDisplay), rfl, fun k _ => pixel_cleared k⟩⟩

end Sys2Proof.Machine
end

/-! # Proofs of the key family (47_keys.md)

Another key set is one more update of the side fields, so `SideUpdate.mapNext_exec` says that only the key instructions
read it. The key skips are skips on `keyPressed`, and the search of WaitKey is an induction over the codes left. -/

section
namespace Sys2Proof.Machine

/-! ## The key set as a side field (R183) -/

/-- Another key set supplied and another step counter (log 1), and nothing else. -/
def keysUpdate (k : Option KeyMask) (n : Nat) : SideUpdate where
  keys := fun _ => k
  steps := fun _ => n

theorem keysUpdate_apply (k : Option KeyMask) (n : Nat) (s : State) :
    (keysUpdate k n).apply s = { s with keys := k, steps := n } := rfl

/-- Only the three key instructions use the key fields (R183). -/
theorem keysUpdate_spares {i : Instr} (k : Option KeyMask) (n : Nat)
    (notKey : ∀ vx, i ≠ .skipKeyPressed vx ∧ i ≠ .skipKeyNotPressed vx ∧ i ≠ .waitKey vx) :
    (keysUpdate k n).Spares i := by
  cases i with
  | skipKeyPressed vx => exact absurd rfl (notKey vx).1
  | skipKeyNotPressed vx => exact absurd rfl (notKey vx).2.1
  | waitKey vx => exact absurd rfl (notKey vx).2.2
  | loadVxDt | loadDtVx | loadStVx | rndVxByte => exact ⟨rfl, rfl⟩
  | _ => trivial

/-- Settles O45: another key set spares every instruction but the three key instructions. -/
theorem keysAreReadOnlyByKeyInstructions : Obligations.KeysAreReadOnlyByKeyInstructions := by
  intro i s k n notKey
  simp only [← keysUpdate_apply]
  exact (SideUpdate.mapNext_exec (keysUpdate_spares k n notKey) s).symm

/-! ## The key skips (R180, R181) -/

theorem keyPressed_iff {keys : KeyMask} {v : Byte} :
    keyPressed keys v = true ↔ v.toNat ≤ 15 ∧ keys.getLsbD v.toNat = true := by
  rw [keyPressed, Bool.and_eq_true, decide_eq_true_eq]

theorem not_keyPressed_iff {keys : KeyMask} {v : Byte} :
    (!keyPressed keys v) = true ↔ ¬ (v.toNat ≤ 15 ∧ keys.getLsbD v.toNat = true) := by
  rw [Bool.not_eq_true', Bool.eq_false_iff, Ne, keyPressed_iff]

/-- Settles O42: the tests are whether the register's key is pressed, or its negation. -/
theorem keySkipsTestTheKeyOfTheRegister : Obligations.KeySkipsTestTheKeyOfTheRegister := by
  intro vx s
  refine ⟨?_, finish_skipIf_of_iff keyPressed_iff, finish_skipIf_of_iff_not not_keyPressed_iff⟩
  intro m supplied
  rw [keysNow, supplied, Option.getD_some]

/-! ## WaitKey (R182) -/

/-- A key set that is not empty holds a key. -/
theorem exists_key_of_ne_zero {keys : KeyMask} (h : keys ≠ 0) : ∃ k < 16, keys.getLsbD k = true := by
  by_contra noKey
  push Not at noKey
  refine h (BitVec.eq_of_getLsbD_eq fun k hk => ?_)
  rw [Bool.eq_false_iff.2 (noKey k hk)]
  exact BitVec.getLsbD_zero.symm

/-- The search among the `fuel` highest codes finds the least pressed one, where one of them is pressed. -/
theorem leastKeyFrom_spec {keys : KeyMask} {fuel : Nat} (hf : fuel ≤ 16)
    (h : ∃ k < 16, 16 - fuel ≤ k ∧ keys.getLsbD k = true) :
    ∃ k < 16, keys.getLsbD k = true ∧ (∀ j < k, 16 - fuel ≤ j → keys.getLsbD j = false) ∧
      leastKeyFrom keys fuel = BitVec.ofNat 8 k := by
  induction fuel with
  | zero =>
    obtain ⟨k, hk, hlo, -⟩ := h
    omega
  | succ fuel ih =>
    rw [leastKeyFrom]
    by_cases here : keys.getLsbD (15 - fuel) = true
    · exact ⟨15 - fuel, by omega, here, fun j hj hlo => by omega, if_pos here⟩
    · obtain ⟨k, hk, hlo, pressed⟩ := h
      have later : k ≠ 15 - fuel := by rintro rfl; exact here pressed
      obtain ⟨m, hm, pressed, least, found⟩ := ih (by omega) ⟨k, hk, by omega, pressed⟩
      refine ⟨m, hm, pressed, fun j hj hlo => ?_, (if_neg here).trans found⟩
      by_cases hj' : j = 15 - fuel
      · subst hj'
        exact Bool.eq_false_iff.2 here
      · exact least j hj (by omega)

/-- The key that WaitKey takes is the least of a set that is not empty (R182, D11). -/
theorem leastKey_spec {keys : KeyMask} (h : keys ≠ 0) :
    ∃ k < 16, keys.getLsbD k = true ∧ (∀ j < k, keys.getLsbD j = false) ∧ leastKey keys = BitVec.ofNat 8 k := by
  obtain ⟨k, hk, pressed⟩ := exists_key_of_ne_zero h
  obtain ⟨m, hm, pressed, least, found⟩ := leastKeyFrom_spec le_rfl ⟨k, hk, Nat.zero_le k, pressed⟩
  exact ⟨m, hm, pressed, fun j hj => least j hj (Nat.zero_le j), found⟩

/-- Settles O43: with no key the instruction stays, and the key it takes is the least one. -/
theorem waitKeyStaysOrTakesTheLowestKey : Obligations.WaitKeyStaysOrTakesTheLowestKey := by
  intro vx s
  refine ⟨exec_waitKey_of_noKey, fun someKey => ?_⟩
  obtain ⟨k, hk, pressed, least, found⟩ := leastKey_spec someKey
  have takes := exec_waitKey_of_key (vx := vx) someKey
  rw [found] at takes
  exact ⟨k, hk, pressed, least, takes⟩

end Sys2Proof.Machine
end

/-! # Proofs of the exception and reset families (60_exceptions.md, 70_reset_and_hazards.md)

Every host operation but `Step` keeps what the form speaks of, or resets it; with the step's invariant this carries the
form through any sequence. What an instruction can fault with is read off its accesses and the self-check. -/

section
namespace Sys2Proof.Machine

open Sys2Proof.Claims

variable {s t : State} {i : Instr} {k : Fault} {op : Operation} {ops : List Operation}

/-! ## The form through the host's operations (R215) -/

theorem stackFits_zero (depth : Option Nat) : stackFits depth 0 := by
  cases depth with
  | none => trivial
  | some d => exact Nat.zero_le d

/-- The state after Reset has the form, whatever the parameters (70_reset_and_hazards.md R230). -/
theorem resetWith_inv (cfg : Config) : (State.resetWith cfg).Inv where
  memory := resetWith_memory_wf cfg
  running := rfl
  counter := by simp [State.resetWith]
  returns := by simp [State.resetWith]
  depth := stackFits_zero cfg.stackDepth

/-- Settles O58: the default parameters are one case of any parameters. -/
theorem resetStateHasTheKeptForm : Obligations.ResetStateHasTheKeptForm :=
  ⟨resetWith_inv standardConfig, resetWith_inv⟩

/-- The form speaks neither of the timers nor of the model's own input fields. -/
theorem SideUpdate.inv_apply (u : SideUpdate) (h : s.Inv) : (u.apply s).Inv :=
  ⟨h.memory, h.running, h.counter, h.returns, h.depth⟩

/-- Reset is the state after reset with other inputs (log 22). -/
theorem resetOf_inv (s : State) : (resetOf s).Inv :=
  SideUpdate.inv_apply
    { keys := fun _ => s.keys, rnd := fun _ => s.rnd, steps := fun _ => s.steps, drawn := fun _ => s.drawn }
    (resetWith_inv s.cfg)

theorem withArguments_inv (keys : KeyMask) (rnd : Byte) (h : s.Inv) : (s.withArguments keys rnd).Inv :=
  SideUpdate.inv_apply { keys := fun _ => some keys, rnd := fun _ => some rnd } h

/-- A Load that goes on copies a range that lies in memory (20_memory.md R55). -/
theorem load_inv {a : Nat} {bytes : List Byte} (h : s.Inv) (hl : load s a bytes = .next t) : t.Inv := by
  by_cases inMemory : a + bytes.length ≤ 4096
  · cases (load_eq inMemory).symm.trans hl
    exact ⟨wf_writeAll bytes inMemory h.memory, h.running, h.counter, h.returns, h.depth⟩
  · cases (load_high (Nat.lt_of_not_le inMemory)).symm.trans hl

theorem effect_inv (h : s.Inv) (he : op.effect s = .next t) : t.Inv := by
  cases op with
  | reset => cases he; exact resetOf_inv s
  | load a bytes => exact load_inv h he
  | step keys rnd => exact stepKeepsTheForm _ _ (withArguments_inv keys rnd h) he
  | tickTimers => cases he; exact tickUpdate.inv_apply h
  | view | dump | disassemble => cases he; exact h

/-- An operation accepted by an engine that has the form unless it is halted leads to a state of the form: a halted
engine accepts Reset only (R210). -/
theorem apply_inv (h : s.halted = none → s.Inv) (ha : op.apply s = .next t) : t.Inv := by
  cases hs : s.halted with
  | none => exact effect_inv (h hs) ((apply_running hs op).symm.trans ha)
  | some k =>
    by_cases ho : op = .reset
    · subst ho
      cases (apply_reset s).symm.trans ha
      exact resetOf_inv s
    · cases (apply_halted hs ho).symm.trans ha

/-- The invariant of a sequence asks for the form only while the engine runs, so a fatal condition keeps it. -/
theorem run_inv (h : s.halted = none → s.Inv) (hr : Operation.run ops s = .next t) : t.Inv := by
  induction ops generalizing s with
  | nil =>
    cases hs : s.halted with
    | none =>
      cases (run_nil_running hs).symm.trans hr
      exact h hs
    | some k =>
      obtain ⟨_, noOperation, -⟩ := run_halted_next hs hr
      cases noOperation
  | cons op rest ih =>
    cases ha : op.apply s with
    | next u => exact ih (fun _ => apply_inv h ha) ((run_cons_next ha rest).symm.trans hr)
    | fault k =>
      have halts : (s.haltWith k).halted ≠ none := Option.some_ne_none k
      exact ih (fun running => absurd running halts) ((run_cons_fault ha rest).symm.trans hr)
    | refused r => cases (run_cons_refused ha rest).symm.trans hr

/-- Settles O60 from the invariant of a sequence. -/
theorem hostOperationsKeepTheForm : Obligations.HostOperationsKeepTheForm :=
  fun _ _ _ h hr => run_inv (fun _ => h) hr

/-! ## What each access faults with (R200) -/

/-- The self-check finds a step stuck only under the fatal policy (R203). -/
theorem stuckPcFatal_of_stuck {o : PcOutcome} (h : stuck o s = true) : s.cfg.stuckPcFatal = true :=
  (Bool.and_eq_true_iff.1 h).2

theorem pop_error (h : pop s = .error k) : k = .stackUnderflow := by
  cases hs : s.stack with
  | nil => cases (pop_nil hs).symm.trans h; rfl
  | cons a rest => cases (pop_cons hs).symm.trans h

/-- Only a stack of finite capacity overflows (R206). -/
theorem push_error {v : Word} (h : push s v = .error k) : k = .stackOverflow ∧ s.cfg.stackDepth ≠ none := by
  unfold push at h
  split at h
  · next full =>
    cases h
    exact ⟨rfl, fun unbounded => by simp [unbounded, stackFull] at full⟩
  · cases h

theorem readBytes_error {a n : Nat} (h : readBytes s a n = .error k) : k = .memoryBoundsFault := by
  by_cases inMemory : n = 0 ∨ a + n ≤ 4096
  · cases (readBytes_eq inMemory).symm.trans h
  · obtain ⟨nonempty, outside⟩ := not_or.1 inMemory
    cases (readBytes_high nonempty (Nat.lt_of_not_le outside)).symm.trans h
    rfl

theorem writeBytes_error {a : Nat} {vs : List Byte} (h : writeBytes s a vs = .error k) : k = .memoryBoundsFault := by
  by_cases inMemory : vs = [] ∨ a + vs.length ≤ 4096
  · cases (writeBytes_eq inMemory).symm.trans h
  · obtain ⟨nonempty, outside⟩ := not_or.1 inMemory
    cases (writeBytes_high nonempty (Nat.lt_of_not_le outside)).symm.trans h
    rfl

/-- Where the step ends in Increment, only the access before it can have faulted. -/
theorem error_of_increment_fault {α : Type} {e : Except Fault α} {g : α → State}
    (h : orRaise e (fun a => finish .increment (g a)) = .fault k) : e = .error k := by
  rcases orRaise_fault h with he | ⟨a, -, hf⟩
  · exact he
  · cases (finish_increment (g a)).symm.trans hf

/-! ## The faults of the instructions that can fault (R200) -/

/-- Only an instruction with a fault of its own ends in anything but a next state. -/
theorem canFault_of_exec_eq {r : Result} (h : exec i s = r) (hr : ∀ u, r ≠ .next u) : canFault i = true := by
  by_contra hc
  obtain ⟨u, goesOn⟩ := exec_next_of_not_canFault s (Bool.eq_false_iff.2 hc)
  exact hr u (h.symm.trans goesOn)

theorem finish_jumpTo_fault {a : Word} (h : finish (.jumpTo a) s = .fault k) :
    k = .stuckProgramCounter ∧ s.cfg.stuckPcFatal = true :=
  (finish_fault h).imp_right stuckPcFatal_of_stuck

theorem exec_ret_fault (h : exec .ret s = .fault k) :
    k = .stackUnderflow ∨ k = .stuckProgramCounter ∧ s.cfg.stuckPcFatal = true := by
  rcases orRaise_fault h with hp | ⟨⟨a, u⟩, hp, hf⟩
  · exact .inl (pop_error hp)
  · obtain ⟨rest, -, rfl⟩ := pop_ok hp
    have stuck := finish_jumpTo_fault hf
    exact .inr stuck

theorem exec_call_fault {nnn : Addr} (h : exec (.call nnn) s = .fault k) :
    (k = .stackOverflow ∧ s.cfg.stackDepth ≠ none) ∨ k = .stuckProgramCounter ∧ s.cfg.stuckPcFatal = true := by
  rcases orRaise_fault h with hp | ⟨u, hp, hf⟩
  · exact .inl (push_error hp)
  · obtain ⟨rfl, -⟩ := push_ok hp
    have stuck := finish_jumpTo_fault hf
    exact .inr stuck

theorem exec_displaySprite_fault {vx vy : RegIx} {n : Nat} (h : exec (.displaySprite vx vy n) s = .fault k) :
    k = .memoryBoundsFault ∨ k = .displayRangeFault := by
  rcases orRaise_fault h with hr | ⟨rows, -, hw⟩
  · exact .inl (readBytes_error hr)
  · exact .inr (blitRows_fault (error_of_increment_fault hw))

/-- Settles O52, instruction by instruction; those outside `canFault` go on. -/
theorem faultsComeOnlyFromTheirInstructions : Obligations.FaultsComeOnlyFromTheirInstructions := by
  intro i s k h
  have own : canFault i = true := canFault_of_exec_eq h nofun
  cases i with
  | ret =>
    rcases exec_ret_fault h with underflow | ⟨stuck, fatal⟩
    · exact .inl ⟨underflow, rfl⟩
    · exact .inr (.inr (.inl ⟨stuck, fatal, .inl rfl⟩))
  | call nnn =>
    rcases exec_call_fault h with ⟨overflow, bounded⟩ | ⟨stuck, fatal⟩
    · exact .inr (.inl ⟨overflow, bounded, nnn, rfl⟩)
    · exact .inr (.inr (.inl ⟨stuck, fatal, .inr ⟨nnn, .inr (.inr rfl)⟩⟩))
  | jump nnn =>
    obtain ⟨stuck, fatal⟩ := finish_jumpTo_fault h
    exact .inr (.inr (.inl ⟨stuck, fatal, .inr ⟨nnn, .inl rfl⟩⟩))
  | jumpV0 nnn =>
    obtain ⟨stuck, fatal⟩ := finish_jumpTo_fault h
    exact .inr (.inr (.inl ⟨stuck, fatal, .inr ⟨nnn, .inr (.inl rfl)⟩⟩))
  | storeRegs vx =>
    have bounds := writeBytes_error (error_of_increment_fault (g := id) h)
    exact .inr (.inr (.inr (.inl ⟨bounds, vx, .inl rfl⟩)))
  | loadRegs vx =>
    have bounds := readBytes_error (error_of_increment_fault h)
    exact .inr (.inr (.inr (.inl ⟨bounds, vx, .inr (.inl rfl)⟩)))
  | storeBcd vx =>
    have bounds := writeBytes_error (error_of_increment_fault (g := id) h)
    exact .inr (.inr (.inr (.inl ⟨bounds, vx, .inr (.inr (.inl rfl))⟩)))
  | displaySprite vx vy n =>
    rcases exec_displaySprite_fault h with bounds | range
    · exact .inr (.inr (.inr (.inl ⟨bounds, vx, .inr (.inr (.inr ⟨vy, n, rfl⟩))⟩)))
    · exact .inr (.inr (.inr (.inr ⟨range, vx, vy, n, rfl⟩)))
  | _ => cases own

/-! ## No refusal (R213) -/

theorem orRaise_not_refused {α : Type} {e : Except Fault α} {f : α → Result} {q : Refusal}
    (h : ∀ a, f a ≠ .refused q) : orRaise e f ≠ .refused q := by
  cases e with
  | ok a => exact h a
  | error k => simp

/-- An access faults or goes on, and so does the end of a step. -/
theorem exec_not_refused (i : Instr) (s : State) (q : Refusal) : exec i s ≠ .refused q := by
  intro h
  have own : canFault i = true := canFault_of_exec_eq h nofun
  cases i with
  | jump | jumpV0 => exact finish_not_refused h
  | ret | call | storeRegs | loadRegs | storeBcd => exact orRaise_not_refused (fun _ => finish_not_refused) h
  | displaySprite =>
    exact orRaise_not_refused (fun _ => orRaise_not_refused fun _ => finish_not_refused) h
  | _ => cases own

/-- Settles O53: `exec` never refuses, and only the instructions of `canFault` can stop. -/
theorem instructionsWithoutFaultAlwaysGoOn : Obligations.InstructionsWithoutFaultAlwaysGoOn :=
  fun i s => ⟨exec_not_refused i s, exec_next_of_not_canFault s⟩

/-! ## After a fatal condition (R209, R210) -/

/-- Settles O56: the sequence goes on from the halted state, whose reset is that of the state before the fault. -/
theorem faultLeadsOnOnlyThroughReset : Obligations.FaultLeadsOnOnlyThroughReset := by
  intro op rest s t k _ fault hr
  rw [run_cons_fault fault] at hr
  simpa only [resetOf_haltWith] using run_halted_next (haltWith_halted s k) hr

/-! ## The values after Reset (70_reset_and_hazards.md R230) -/

/-- Byte `k` of glyph `d` lies at `5 * d + k` (20_memory.md R51). -/
theorem unlisted_glyph (g : Glyphs) (d : Fin 16) (k : Fin 5) : unlisted g (5 * d.val + k.val) = g[d][k] := by
  have inArea : 5 * d.val + k.val < 80 := by omega
  have glyph : (5 * d.val + k.val) / 5 = d.val := by omega
  have row : (5 * d.val + k.val) % 5 = k.val := by omega
  simp only [unlisted, dif_pos inArea, glyph, row, Fin.getElem_fin]

theorem unlisted_above (g : Glyphs) {a : Nat} (h : 80 ≤ a) : unlisted g a = 0 :=
  dif_neg (Nat.not_lt.2 h)

/-- After Reset no byte is listed, so each reads as its reset contents. -/
theorem readByte_resetOf (s : State) {a : Nat} (h : a < 4096) :
    readByte (resetOf s) a = .ok (unlisted s.cfg.glyphs a) :=
  readByte_eq h

/-- Settles O57: the fields by their definition, memory by what an unlisted address reads as. -/
theorem resetLeavesTheDecidedValues : Obligations.ResetLeavesTheDecidedValues := by
  intro s
  refine ⟨resetOf s, apply_reset s, rfl, fun i => ?_, rfl, rfl, rfl, rfl, fun k _ => ?_, rfl, rfl,
    fun d k => ?_, fun a above inMemory => ?_⟩
  · exact Vector.getElem_replicate i.isLt
  · exact pixel_cleared k
  · rw [readByte_resetOf s (by omega), unlisted_glyph]
  · rw [readByte_resetOf s inMemory, unlisted_above _ above]

end Sys2Proof.Machine
end
